-- ==== Sys2Proof/Word.lean ====
section
/-! DEFINITION. The plain data types of the block: bytes, register words, lengths, and the two sides of a chunk. -/

namespace Sys2Proof

/-- A byte, and a symbol, which is a byte meant to hold one character of the alphabet (R9). -/
abbrev Byte := BitVec 8

/-- The 32-bit registers `A` and `R` (R14, R17). -/
abbrev Word := BitVec 32

/-- A `LENW`-bit length register: `N`, `CAP`, `IDX` (R6, R15, R16, R24). -/
abbrev Length := BitVec 32

/-- A `LENW + 1`-bit length register: `RLEN` (R18, R61). -/
abbrev LongLength := BitVec 33

/-- A 3-bit command code, as the command port carries it (R47). -/
abbrev Code := BitVec 3

/-- The 4-symbol side of a chunk; `s0` is the first symbol, the one at the lowest index (R35). -/
structure Quad where
  s0 : Byte
  s1 : Byte
  s2 : Byte
  s3 : Byte
  deriving DecidableEq, Repr

/-- The 3-byte side of a chunk; `b0` is the first byte, the one at the lowest index (R35). -/
structure Triple where
  b0 : Byte
  b1 : Byte
  b2 : Byte
  deriving DecidableEq, Repr

end Sys2Proof
end

