-- ==== Sys2Proof/Syntax.lean ====
section
/-! DEFINITION. The commands of the block (R48) and the moves of the host (R19, R56), as syntax. -/

namespace Sys2Proof

/-- The eight commands, one per row of spec/opcode_table.json. A command code has no operand field: every operand is in a
fixed register (R47, R49). -/
inductive Instr where
  /-- Encoded length (R60). -/
  | enclen
  /-- Decoded length (R62). -/
  | declen
  /-- Symbol encoder (R64). -/
  | enc6
  /-- Symbol decoder (R70). -/
  | dec6
  /-- Triplet encoder (R77). -/
  | enc3
  /-- Quad decoder (R82). -/
  | dec4
  /-- Top-level encode driver (R89). -/
  | encode
  /-- Top-level decode driver (R97). -/
  | decode
  deriving DecidableEq, Repr

/-- What the host can read (R19). `busy` is the predicate `PHASE ≠ IDLE`, all it can see of the sequencing state (R25). -/
inductive ReadTarget where
  | a
  | n
  | cap
  | r
  | rlen
  | inv
  | status
  | busy
  | src (i : Nat)
  | dst (i : Nat)
  deriving DecidableEq, Repr

/-- One move of the host. -/
inductive HostMove where
  /-- Write the operand register `A` (R14). -/
  | setA (v : Word)
  /-- Write the operand register `N` (R15). -/
  | setN (v : Length)
  /-- Write the operand register `CAP` (R16). -/
  | setCap (v : Length)
  /-- Write one byte of the source memory (R19, R31). -/
  | writeSrc (i : Nat) (b : Byte)
  /-- Write one byte of the destination memory (R19). -/
  | writeDst (i : Nat) (b : Byte)
  /-- Present a command code on the 3-bit command port (R47, R109). -/
  | issue (op : Code)
  /-- Do nothing until the block is idle again (R56). -/
  | wait
  /-- Let the block take one micro-step, and no more. -/
  | tick
  /-- Read a register, a memory byte or the busy predicate (R19). -/
  | read (what : ReadTarget)
  /-- Apply reset (R138). -/
  | reset
  deriving DecidableEq, Repr

/-- A line of the host notation of R56 that is an action (`EXPECT` is none). -/
inductive HostLine where
  | setA (v : Word)
  | setN (v : Length)
  | setCap (v : Length)
  | loadSrc (i : Nat) (bytes : List Byte)
  | fillDst (i k : Nat) (b : Byte)
  | command (c : Instr)
  deriving DecidableEq, Repr

end Sys2Proof
end

