-- ==== Sys2Proof/Decode.lean ====
section
/-! DEFINITION. The command decoder and encoder (R47, R48, R54, R55). -/

namespace Sys2Proof

/-- The decoder on the 3-bit command port: R48's opcode map. All eight codes are commands, so none is refused (R54). -/
def decodePort (op : Code) : Instr :=
  match op with
  | 0b000 => .enclen
  | 0b001 => .declen
  | 0b010 => .enc6
  | 0b011 => .dec6
  | 0b100 => .enc3
  | 0b101 => .dec4
  | 0b110 => .encode
  | 0b111 => .decode

/-- Why a word cannot be put on the command port. -/
inductive DecodeRefusal where
  /-- The word has fewer than the three bits `op[2:0]` of a command (R47, R55). -/
  | tooFewBits
  deriving DecidableEq, Repr

/-- The three bits `op[2:0]` of a word (R47). R48 gives every row the mask `0b111`, so a bit above bit 2 is no bit of the
command. DESIGN CHOICE (notes/assumptions/6.md): such bits are not looked at. -/
def portCode (w : Nat) : Code := BitVec.ofNat 3 w

/-- The decoder on a word of `nbits` bits, bit 0 least significant. -/
def decodeWord (nbits w : Nat) : Except DecodeRefusal Instr :=
  if nbits < 3 then .error .tooFewBits else .ok (decodePort (portCode w))

/-- The command the decoder reads from a word numbered as spec/opcode_table.json numbers its bits. -/
def decodeTableWord (nbits w : Nat) : Option Instr :=
  match decodeWord nbits w with
  | .ok i => some i
  | .error _ => none

/-- The command code of R48. -/
def encode : Instr → Code
  | .enclen => 0b000
  | .declen => 0b001
  | .enc6 => 0b010
  | .dec6 => 0b011
  | .enc3 => 0b100
  | .dec4 => 0b101
  | .encode => 0b110
  | .decode => 0b111

/-- A row of the opcode table: a word is of the row when its bits under `mask` are `pattern`. -/
structure CodeRow where
  pattern : Code
  mask : Code
  command : Instr
  deriving DecidableEq, Repr

/-- spec/opcode_table.json, row by row (`match` and `mask` columns). -/
def codeTable : List CodeRow :=
  [⟨0, 7, .enclen⟩, ⟨1, 7, .declen⟩, ⟨2, 7, .enc6⟩, ⟨3, 7, .dec6⟩,
   ⟨4, 7, .enc3⟩, ⟨5, 7, .dec4⟩, ⟨6, 7, .encode⟩, ⟨7, 7, .decode⟩]

/-- Does the row admit the code? -/
def CodeRow.admits (row : CodeRow) (op : Code) : Bool := op &&& row.mask == row.pattern

end Sys2Proof
end

