-- ==== Sys2Proof/Config.lean ====
section
/-! DEFINITION. What an embodiment of the block fixes (R5 to R8), and the values the spec leaves open. -/

namespace Sys2Proof.Config

/-- `W`, the width of the signed values of the symbol arithmetic (R5, decision D2). -/
abbrev signedWidth : Nat := 16

/-- `LENW`, the width of a length (R6, decision D3). -/
abbrev lengthWidth : Nat := 32

/-- `FILLER`, the alphabet byte that pads a partial final group of symbols (R7, decision D4). -/
abbrev filler : Byte := 0x41

/-- The largest number of locations either memory may have: one per `LENW`-bit index (R31, R32). -/
abbrev indexCount : Nat := 2 ^ lengthWidth

/-- `SRC_SIZE` in `State.reset`. DESIGN CHOICE (notes/assumptions/3.md): the largest the spec allows, which is the
choice 93_implementation_defined.md U6 calls the simplest. -/
abbrev srcSizeAtReset : Nat := indexCount

/-- `DST_SIZE` in `State.reset`. DESIGN CHOICE (notes/assumptions/3.md), as for `srcSizeAtReset`. -/
abbrev dstSizeAtReset : Nat := indexCount

/-- FREE VALUE (notes/assumptions/1.md, 11.md): what an operand register holds that the host has not written since reset, which
R139 calls unspecified and R140 undefined. The argument is drawn from the model's
counter `State.freeTick`; nothing is known of the value. -/
opaque unspecifiedWord : Nat → Word

end Sys2Proof.Config
end

