-- ==== Sys2Proof/Machine/State.lean ====
section
/-! DEFINITION. The state of one block (R13) beside the host's side of it, why a step can stop, and the state after reset. -/

namespace Sys2Proof.Machine

/-- The stages of a driver command; `idle` means that no command is in progress (R25). The codes 5, 6 and 7 are never taken,
and the enumeration has no member for them (93_implementation_defined.md U8). -/
inductive Phase where
  | idle
  | check
  | full
  | rem
  | fin
  deriving DecidableEq, Repr

/-- The values of `STATUS` (R21); the code 3 is never written and has no member (U8). -/
inductive Status where
  | ok
  | invalidLength
  | invalidEncoding
  deriving DecidableEq, Repr

/-- The two driver commands, which the chunk iterator carries out (R108). -/
inductive Driver where
  | encode
  | decode
  deriving DecidableEq, Repr

/-- A byte memory: the bytes written so far, addresses strictly rising. An address that is not listed holds no defined value
(R140; DESIGN CHOICE, notes/assumptions/2.md). -/
abbrev Memory := List Host.Cell

/-- One value the host has read: what it read, and the value as an unsigned number. -/
structure Observation where
  what : ReadTarget
  value : Nat
  deriving DecidableEq, Repr

/-- Why the machine is stuck. The block has no faults of its own (R122, R130): both constructors are states that no rule
gives a successor (93_implementation_defined.md U8, "stuck"). -/
inductive Fault where
  /-- `PHASE ≠ IDLE` with `CMD` below 6. Raised by the chunk iterator. Safe: no rule gives this state a successor, and no
  step leads to it from a state that meets the invariant (notes/assumptions/14.md). -/
  | noDriverRunning
  /-- `PHASE = FULL` with `IDX > full`. Raised by the chunk iterator. Safe, as above (R114, notes/assumptions/14.md). -/
  | indexPastEnd
  deriving DecidableEq, Repr

/-- Why a run leaves the model: host errors, which the spec asks a model to refuse (R140, R143, 93_implementation_defined.md
U4 to U6). -/
inductive Refusal where
  /-- A command that the model gives no meaning. Safe. No arm of `exec` answers so now. -/
  | notModelled (mnemonic : String)
  /-- A command presented while `PHASE ≠ IDLE` (R144). Raised by every command. Safe. -/
  | commandWhileBusy
  /-- A write of `A`, `N`, `CAP` or `SRC` while `PHASE ≠ IDLE` (R145). Raised by the host's move. Safe. -/
  | operandWriteWhileBusy
  /-- A read or write of `DST`, or a read of a register or of `SRC`, while `PHASE ≠ IDLE` (R146, R19). Raised by the host's
  move. Safe. -/
  | accessWhileBusy
  /-- ENCODE or DECODE issued with `N > SRC_SIZE` (R143). Raised by the issue of a driver. Safe. -/
  | sourceTooLong
  /-- ENCODE or DECODE issued with `CAP > DST_SIZE` (R143). Raised by the issue of a driver. Safe. -/
  | capacityTooLarge
  /-- An access at an index at or above the memory's size (R40, R143). Raised by a host move, or by the chunk iterator in a
  state that no run of a host which keeps R143 reaches. Safe. -/
  | noSuchLocation
  /-- A read, by a driver or by the host, of a byte of `SRC` that the host has not written since reset (R140). Safe. -/
  | unwrittenSource
  /-- A read by the host of a byte of `DST` that neither the host nor a command has written (R140). Safe. -/
  | unwrittenDestination
  deriving DecidableEq, Repr

/-- The state: R13's table, then the model's own fields (INVENTORY.md, ## State). -/
structure State where
  /-- `A` (R14). -/
  a : Word
  /-- `N` (R15). -/
  n : Length
  /-- `CAP` (R16). -/
  cap : Length
  /-- Has the host written `A` since reset (R140, R142; notes/assumptions/1.md)? -/
  aWritten : Bool
  /-- Has the host written `N` since reset (R140, R142; notes/assumptions/1.md)? -/
  nWritten : Bool
  /-- Has the host written `CAP` since reset (R140, R142; notes/assumptions/1.md)? -/
  capWritten : Bool
  /-- `R` (R17). -/
  r : Word
  /-- `RLEN` (R18). -/
  rlen : LongLength
  /-- `INV` (R20). -/
  inv : Bool
  /-- `STATUS` (R21). -/
  status : Status
  /-- `PHASE` (R25). -/
  phase : Phase
  /-- `CMD` (R25). -/
  cmd : Code
  /-- `IDX` (R24). -/
  idx : Length
  /-- `ERR` (R23). -/
  err : Bool
  /-- `SRC` (R27, R31). -/
  src : Memory
  /-- `DST` (R27, R32). -/
  dst : Memory
  /-- The parameter `SRC_SIZE` (R31), which no step changes (notes/assumptions/3.md). -/
  srcSize : Nat
  /-- The parameter `DST_SIZE` (R32), which no step changes (notes/assumptions/3.md). -/
  dstSize : Nat
  /-- The moves the host is still to make, the next one first (notes/assumptions/4.md). -/
  script : List HostMove
  /-- What the host has read so far, newest first (notes/assumptions/4.md). -/
  seen : List Observation
  /-- The counter that the free values of `Config.unspecifiedWord` are drawn with; every reset advances it
  (notes/assumptions/11.md). -/
  freeTick : Nat
  deriving DecidableEq, Repr

/-- The outcome of a step of this machine. -/
abbrev Out := Host.Outcome State Fault Refusal

/-- The state right after reset (R139). `A`, `N` and `CAP` are unspecified there: the fields hold 0, a DESIGN CHOICE
(notes/assumptions/1.md) that no read can see, because none of the three has been written (R140). Neither memory
has a byte with a defined value. -/
def State.reset : State where
  a := 0
  n := 0
  cap := 0
  aWritten := false
  nWritten := false
  capWritten := false
  r := 0
  rlen := 0
  inv := false
  status := .ok
  phase := .idle
  cmd := 0
  idx := 0
  err := false
  src := []
  dst := []
  srcSize := Config.srcSizeAtReset
  dstSize := Config.dstSizeAtReset
  script := []
  seen := []
  freeTick := 0

end Sys2Proof.Machine
end

