-- ==== Sys2Proof/Machine/Ops.lean ====
section
/-! DEFINITION. The named operations over the memories and the registers: byte reads and writes, the latching of a command
code, the `complete` action every command ends with, and reset. The block takes no exception (R130); an error is a
`complete` with a status other than OK. -/

namespace Sys2Proof.Machine

/-- The 2-bit code of a status (R21). -/
def statusCode : Status → BitVec 2
  | .ok => 0
  | .invalidLength => 1
  | .invalidEncoding => 2

/-- The 3-bit code of a phase (R25). -/
def phaseCode : Phase → BitVec 3
  | .idle => 0
  | .check => 1
  | .full => 2
  | .rem => 3
  | .fin => 4

/-! ## Operand registers -/

/-- What a read of an operand register finds: what the host wrote there, or, when it has written nothing since reset, a value
that no rule gives, a FREE VALUE (R139, R140; 93_implementation_defined.md U5, "any value"; notes/assumptions/1.md). -/
def readOperand (written : Bool) (held : Word) (draw : Nat) : Word :=
  if written then held else Config.unspecifiedWord draw

/-- `A` as a command or the host reads it (R14, R140). -/
def State.operandA (s : State) : Word := readOperand s.aWritten s.a s.freeTick

/-- `N` as a command or the host reads it, a number of bytes or symbols (R15, R140). -/
def State.inputLength (s : State) : Nat := (readOperand s.nWritten s.n (s.freeTick + 1)).toNat

/-- `CAP` as a command or the host reads it, a number of bytes (R16, R140). -/
def State.capacity (s : State) : Nat := (readOperand s.capWritten s.cap (s.freeTick + 2)).toNat

/-! ## Memories -/

/-- The canonical form: addresses strictly rising, so that equal memories are equal lists. (No address that is not listed
reads as a value, so no entry is redundant.) -/
abbrev Memory.wf (m : Memory) : Prop := List.Pairwise (fun c d : Host.Cell => c.1 < d.1) m

/-- The byte at an address, if one has been written there. -/
def memRead : Memory → Nat → Option Byte
  | [], _ => none
  | (k, v) :: rest, i => if k = i then some v else memRead rest i

/-- Write one byte, keeping the addresses in order. -/
def memWrite : Memory → Nat → Byte → Memory
  | [], i, b => [(i, b)]
  | (k, v) :: rest, i, b =>
    if i < k then (i, b) :: (k, v) :: rest
    else if i = k then (i, b) :: rest
    else (k, v) :: memWrite rest i b

/-- Write bytes at ascending addresses from `base`; element 0 is at `base` (R12, R35, R42). -/
def memWriteAll (m : Memory) (base : Nat) : List Byte → Memory
  | [] => m
  | b :: bs => memWriteAll (memWrite m base b) (base + 1) bs

/-- `MemRead(SRC, i, 1)` (R12, R38, R39). An index outside the memory, or a byte nothing has written since reset, puts the
run outside the model (R140, R143). -/
def readSrc (s : State) (i : Nat) : Except Refusal Byte :=
  if i < s.srcSize then
    match memRead s.src i with
    | some b => .ok b
    | none => .error .unwrittenSource
  else .error .noSuchLocation

/-- The host's read of `DST[i]` (R19, R140). -/
def readDst (s : State) (i : Nat) : Except Refusal Byte :=
  if i < s.dstSize then
    match memRead s.dst i with
    | some b => .ok b
    | none => .error .unwrittenDestination
  else .error .noSuchLocation

/-- `SRC[i]` where the input has an element there, else the padding byte, without an access (R92, R102). -/
def readSrcOr (real : Bool) (s : State) (i : Nat) (padding : Byte) : Except Refusal Byte :=
  if real then readSrc s i else .ok padding

/-- `DST[base ..] <- bytes` (R12, R38, R42). -/
def writeDst (s : State) (base : Nat) (bytes : List Byte) : Except Refusal State :=
  if base + bytes.length ≤ s.dstSize then .ok { s with dst := memWriteAll s.dst base bytes }
  else .error .noSuchLocation

/-- The host's write of `SRC[i]` (R19, R34). -/
def writeSrc (s : State) (i : Nat) (b : Byte) : Except Refusal State :=
  if i < s.srcSize then .ok { s with src := memWrite s.src i b } else .error .noSuchLocation

/-- A result of an access as the outcome of a step. -/
def toOut : Except Refusal State → Out
  | .ok s => .next s
  | .error e => .refused e

/-! ## Commands -/

/-- `CMD <- op` (R109). -/
def latchCommand (op : Code) (s : State) : State := { s with cmd := op }

/-- The `complete` action (R22), one indivisible step: `STATUS <- status; RLEN <- rlen; INV <- inv; R <- r; PHASE <- IDLE`. -/
def complete (status : Status) (rlen : LongLength) (inv : Bool) (r : Word) (s : State) : State :=
  { s with status := status, rlen := rlen, inv := inv, r := r, phase := .idle }

/-- An action that the host may take only while `PHASE = IDLE` (R19, R144 to R146); otherwise the run leaves the model. -/
def whenIdle (breach : Refusal) (s : State) (action : Out) : Out :=
  if s.phase = .idle then action else .refused breach

/-- Issue of a short command: it latches its code and has its whole effect in the same step (R109, R110). -/
def shortCommand (op : Code) (s : State) (effect : State → State) : Out :=
  whenIdle .commandWhileBusy s (.next (effect (latchCommand op s)))

/-- Issue of a driver command: it latches its code and `PHASE <- CHECK`, and nothing else changes (R109). A length above its
memory's size is a host error, for which the spec asks a model to refuse the command (R143; notes/assumptions/8.md). -/
def driverCommand (op : Code) (s : State) : Out :=
  whenIdle .commandWhileBusy s
    (if s.srcSize < s.inputLength then .refused .sourceTooLong
     else if s.dstSize < s.capacity then .refused .capacityTooLarge
     else .next { latchCommand op s with phase := .check })

/-! ## Reset -/

/-- Reset, at whatever moment it arrives (R138, R139, R141): the result registers and the sequencing state take their reset
values and a command in progress is abandoned. `A`, `N` and `CAP` are unspecified: none has been written since this reset,
so each reads as a free value drawn anew (R140; notes/assumptions/11.md); no byte of
`SRC` has been written since this reset (R140), so none is listed; `DST` keeps what it held (R141; notes/assumptions/10.md). -/
def resetBlock (s : State) : State :=
  { s with
    aWritten := false
    nWritten := false
    capWritten := false
    r := 0
    rlen := 0
    inv := false
    status := .ok
    phase := .idle
    cmd := 0
    idx := 0
    err := false
    src := []
    freeTick := s.freeTick + 3 }

end Sys2Proof.Machine
end

