-- ==== Sys2Proof/Machine/Lengths.lean ====
section
/-! DEFINITION. The length functions and their commands (R59 to R63). All arithmetic is exact over the naturals. -/

namespace Sys2Proof.Machine

/-- ENCLEN, the function, by the document's formula (R60). -/
def enclen (n : Nat) : Nat :=
  let q := 4 * n
  let r := q % 3
  q / 3 + (if r ≠ 0 then 1 else 0)

/-- DECLEN, the function (R62). -/
def declen (m : Nat) : Nat := 3 * m / 4

/-- A length as the 33-bit register `RLEN` holds it (R18, R61). -/
def rlenOf (k : Nat) : LongLength := BitVec.ofNat 33 k

/-- ENCLEN: `complete(OK, ENCLEN(N), 0, 0)` (R60). -/
def execEnclen (s : State) : Out :=
  shortCommand 0 s (complete .ok (rlenOf (enclen s.inputLength)) false 0)

/-- DECLEN: `complete(OK, DECLEN(N), 0, 0)` (R62). -/
def execDeclen (s : State) : Out :=
  shortCommand 1 s (complete .ok (rlenOf (declen s.inputLength)) false 0)

end Sys2Proof.Machine
end

