-- ==== Sys2Proof/Machine/Drivers.lean ====
section
/-! DEFINITION. The two driver commands, as issued (R89, R97, R109), and the quantities both are made of (R108). What a driver
does after its issue is in Sys2Proof/Machine/Iterator.lean. -/

namespace Sys2Proof.Machine

/-- Which driver `CMD` says is running (R25, R108). -/
def driverOf (cmd : Code) : Option Driver :=
  if cmd = 6 then some .encode else if cmd = 7 then some .decode else none

/-- `need`, the required output length (R108). -/
def need : Driver → Nat → Nat
  | .encode, n => enclen n
  | .decode, n => declen n

/-- `full`, the number of full chunks or groups (R108). -/
def fullChunks : Driver → Nat → Nat
  | .encode, n => n / 3
  | .decode, n => n / 4

/-- `rem`, the raw bytes or symbols left over (R108). -/
def remainder : Driver → Nat → Nat
  | .encode, n => n % 3
  | .decode, n => n % 4

/-- `k`, the output bytes of a decode's remainder (R97). -/
def remainderBytes (rem : Nat) : Nat := 3 * rem / 4

/-- ENCODE, issued: `CMD <- 6`, `PHASE <- CHECK` (R109). -/
def execEncode (s : State) : Out := driverCommand 6 s

/-- DECODE, issued: `CMD <- 7`, `PHASE <- CHECK` (R109). -/
def execDecode (s : State) : Out := driverCommand 7 s

end Sys2Proof.Machine
end

