-- ==== Sys2Proof/Machine/Arith.lean ====
section
/-! DEFINITION. Signed arithmetic of the symbol functions (R5, R10): two's complement values of a width `w`, which the block
takes as `W = 16`. -/

namespace Sys2Proof.Machine

/-- `asr(a, k)`, the arithmetic right shift (R10). -/
def asr {w : Nat} (x : BitVec w) (k : Nat) : BitVec w := x.sshiftRight k

/-- The mask made of a sign: all bits 1 when the value is negative, 0 otherwise (R10: `asr(a, W - 1)`). -/
def signMask {w : Nat} (x : BitVec w) : BitVec w := asr x (w - 1)

/-- A constant of the rules as a signed value. -/
def signed (w : Nat) (k : Int) : BitVec w := BitVec.ofInt w k

/-- `trunc8`, the low 8 bits (R10). -/
def trunc8 {w : Nat} (x : BitVec w) : Byte := x.setWidth 8

/-- `zext_w` of an unsigned value (R10). -/
def zext {v : Nat} (w : Nat) (x : BitVec v) : BitVec w := x.setWidth w

/-- `sext_w` of a signed value (R10). -/
def sext {v : Nat} (w : Nat) (x : BitVec v) : BitVec w := x.signExtend w

end Sys2Proof.Machine
end

