-- ==== Sys2Proof/Machine/Flags.lean ====
section
/-! DEFINITION. The validity flags: the mark of a decoded symbol, the signal of a quad, the accumulator of a decode, and the
status a decode ends with. -/

namespace Sys2Proof.Machine

/-- The validity flag of a decoded symbol is bit 8 of the value, 1 for a byte outside the alphabet (R73). -/
def invalidMark {w : Nat} (d : BitVec w) : Bool := d.getLsbD 8

/-- The invalidity signal of a quad, `asr(c0 | c1 | c2 | c3, 8) & 1` (R83, R85). -/
def quadInvalid {w : Nat} (c0 c1 c2 c3 : BitVec w) : Bool :=
  (asr (c0 ||| c1 ||| c2 ||| c3) 8 &&& BitVec.ofNat w 1).getLsbD 0

/-- `ERR <- ERR | x` (R23). -/
def accumulate (err x : Bool) : Bool := err || x

/-- The structural check of a decode: a remainder of exactly one symbol is invalid (R101). -/
def loneSymbol (rem : Nat) : Bool := rem == 1

/-- The status a decode ends with once its length check has passed (R103). -/
def decodeStatus (err : Bool) : Status := if err then .invalidEncoding else .ok

end Sys2Proof.Machine
end

