-- ==== Sys2Proof/Machine/Operands.lean ====
section
/-! DEFINITION. How operands lie in `A` and results in `R` (R49 to R53), and the 24-bit layout of a chunk (R35). -/

namespace Sys2Proof.Machine

/-- ENC6 reads `A[5:0]` and ignores `A[31:6]` (R50). -/
def enc6Operand (a : Word) : BitVec 6 := a.extractLsb' 0 6

/-- DEC6 reads `A[7:0]` and ignores `A[31:8]` (R50). -/
def dec6Operand (a : Word) : Byte := a.extractLsb' 0 8

/-- ENC3 reads `b0 = A[23:16]`, `b1 = A[15:8]`, `b2 = A[7:0]` and ignores `A[31:24]` (R51). -/
def enc3Operand (a : Word) : Triple := ⟨a.extractLsb' 16 8, a.extractLsb' 8 8, a.extractLsb' 0 8⟩

/-- DEC4 reads `s0 = A[31:24]`, `s1 = A[23:16]`, `s2 = A[15:8]`, `s3 = A[7:0]` (R52). -/
def dec4Operand (a : Word) : Quad :=
  ⟨a.extractLsb' 24 8, a.extractLsb' 16 8, a.extractLsb' 8 8, a.extractLsb' 0 8⟩

/-- The 24 bits of a chunk, `bits = {b0, b1, b2}` (R35, R78). -/
def chunkBits (t : Triple) : BitVec 24 := t.b0 ++ t.b1 ++ t.b2

/-- ENC6's result: the character in `R[7:0]`, `R[31:8] = 0` (R50). -/
def enc6Result (c : Byte) : Word := zext 32 c

/-- DEC6's result: the signed value sign-extended to 32 bits (R50). -/
def dec6Result (d : BitVec Config.signedWidth) : Word := sext 32 d

/-- ENC3's result: `R = {s0, s1, s2, s3}` (R51, R77). -/
def enc3Result (q : Quad) : Word := q.s0 ++ q.s1 ++ q.s2 ++ q.s3

/-- DEC4's result: `R[31:24] = 0`, `R[23:0] = {b0, b1, b2}` (R52, R82). -/
def dec4Result (t : Triple) : Word := zext 32 (chunkBits t)

/-- The symbols of a quad in memory order (R35). -/
def quadBytes (q : Quad) : List Byte := [q.s0, q.s1, q.s2, q.s3]

/-- The bytes of a triple in memory order (R35). -/
def tripleBytes (t : Triple) : List Byte := [t.b0, t.b1, t.b2]

end Sys2Proof.Machine
end

