-- ==== Sys2Proof/Machine/SymbolDecoder.lean ====
section
/-! DEFINITION. The symbol decoder and its command DEC6 (R70 to R76). -/

namespace Sys2Proof.Machine

/-- The double mask: the offset when `lo < ch < hi`, else 0; `asr((lo - ch) & (ch - hi), W - 1) & offset` (R71). -/
def offsetBetween {w : Nat} (ch : BitVec w) (lo hi : Int) (offset : BitVec w) : BitVec w :=
  signMask ((signed w lo - ch) &&& (ch - signed w hi)) &&& offset

/-- DEC6, the function, at width `w`: the alphabet index of the byte, or -1 (R71). -/
def dec6At (w : Nat) (s : Byte) : BitVec w :=
  let ch := zext w s
  signed w (-1)
    + offsetBetween ch 0x40 0x5b (ch - signed w 64)
    + offsetBetween ch 0x60 0x7b (ch - signed w 70)
    + offsetBetween ch 0x2f 0x3a (ch + signed w 5)
    + offsetBetween ch 0x2a 0x2c (signed w 63)
    + offsetBetween ch 0x2e 0x30 (signed w 64)

/-- DEC6, the function, at the block's width `W` (R5, R71). -/
def dec6 (s : Byte) : BitVec Config.signedWidth := dec6At Config.signedWidth s

/-- DEC6, the command: with `d = DEC6(A[7:0])`, `complete(OK, 0, d[8], sext_32(d))` (R70). -/
def execDec6 (s : State) : Out :=
  let d := dec6 (dec6Operand s.operandA)
  shortCommand 3 s (complete .ok 0 (invalidMark d) (dec6Result d))

end Sys2Proof.Machine
end

