-- ==== Sys2Proof/Machine/QuadDecoder.lean ====
section
/-! DEFINITION. The quad decoder and its command DEC4 (R82 to R88). -/

namespace Sys2Proof.Machine

/-- What the quad decoder returns: three bytes and the invalidity signal. -/
structure Decoded where
  bytes : Triple
  invalid : Bool
  deriving DecidableEq, Repr

/-- DEC4, the function, at width `w`: all four symbols are always decoded (R83, R86). The bytes of a quad with an invalid
symbol follow the same formulas (R84, decision D6; notes/assumptions/12.md). -/
def dec4At (w : Nat) (q : Quad) : Decoded :=
  let c0 := dec6At w q.s0
  let c1 := dec6At w q.s1
  let c2 := dec6At w q.s2
  let c3 := dec6At w q.s3
  { bytes :=
      { b0 := trunc8 ((c0 <<< 2) ||| asr c1 4)
        b1 := trunc8 ((c1 <<< 4) ||| asr c2 2)
        b2 := trunc8 ((c2 <<< 6) ||| c3) }
    invalid := quadInvalid c0 c1 c2 c3 }

/-- DEC4, the function, at the block's width `W` (R5, R83). -/
def dec4 (q : Quad) : Decoded := dec4At Config.signedWidth q

/-- DEC4, the command: `complete(OK, 0, inv, zext_32({b0, b1, b2}))` (R82). -/
def execDec4 (s : State) : Out :=
  let d := dec4 (dec4Operand s.operandA)
  shortCommand 5 s (complete .ok 0 d.invalid (dec4Result d.bytes))

end Sys2Proof.Machine
end

