-- ==== Sys2Proof/Machine/SymbolEncoder.lean ====
section
/-! DEFINITION. The symbol encoder and its command ENC6 (R64 to R69). -/

namespace Sys2Proof.Machine

/-- "Add the offset if the value exceeds the threshold": `asr(t - v, W - 1) & offset` (R65). -/
def offsetAbove {w : Nat} (v : BitVec w) (threshold offset : Int) : BitVec w :=
  signMask (signed w threshold - v) &&& signed w offset

/-- ENC6, the function, at width `w` (R65). Its domain is 6 bits (R69). -/
def enc6At (w : Nat) (v : BitVec 6) : Byte :=
  let x := zext w v
  let diff := signed w 0x41 + offsetAbove x 25 6 + offsetAbove x 51 (-75) + offsetAbove x 61 (-15) + offsetAbove x 62 3
  trunc8 (x + diff)

/-- ENC6, the function, at the block's width `W` (R5, R65). -/
def enc6 (v : BitVec 6) : Byte := enc6At Config.signedWidth v

/-- ENC6, the command: `complete(OK, 0, 0, zext_32(ENC6(A[5:0])))` (R64). -/
def execEnc6 (s : State) : Out :=
  shortCommand 2 s (complete .ok 0 false (enc6Result (enc6 (enc6Operand s.operandA))))

end Sys2Proof.Machine
end

