-- ==== Sys2Proof/Machine/TripletEncoder.lean ====
section
/-! DEFINITION. The triplet encoder and its command ENC3 (R77 to R81). -/

namespace Sys2Proof.Machine

/-- ENC3, the function: the four 6-bit groups of the chunk's 24 bits, each through the symbol encoder (R78). -/
def enc3 (t : Triple) : Quad :=
  let bits := chunkBits t
  ⟨enc6 (bits.extractLsb' 18 6), enc6 (bits.extractLsb' 12 6), enc6 (bits.extractLsb' 6 6), enc6 (bits.extractLsb' 0 6)⟩

/-- ENC3, the command: `complete(OK, 0, 0, {s0, s1, s2, s3})` (R77). -/
def execEnc3 (s : State) : Out :=
  shortCommand 4 s (complete .ok 0 false (enc3Result (enc3 (enc3Operand s.operandA))))

end Sys2Proof.Machine
end

