-- ==== Sys2Proof/Machine/Dispatch.lean ====
section
/-! DEFINITION. What presenting each command does. -/

namespace Sys2Proof.Machine

/-- One command, presented to the block. -/
def exec (i : Instr) (s : State) : Host.Outcome State Fault Refusal :=
  match i with
  | .enclen => Sys2Proof.Machine.execEnclen s
  | .declen => Sys2Proof.Machine.execDeclen s
  | .enc6 => Sys2Proof.Machine.execEnc6 s
  | .dec6 => Sys2Proof.Machine.execDec6 s
  | .enc3 => Sys2Proof.Machine.execEnc3 s
  | .dec4 => Sys2Proof.Machine.execDec4 s
  | .encode => Sys2Proof.Machine.execEncode s
  | .decode => Sys2Proof.Machine.execDecode s

end Sys2Proof.Machine
end

