-- ==== Sys2Proof/Machine/Iterator.lean ====
section
/-! DEFINITION. The chunk iterator: the micro-steps of ENCODE and DECODE (R108 to R118). Each definition is one guarded
transition of 47_chunk_iterator.md; all assignments of one happen together. -/

namespace Sys2Proof.Machine

/-- CHECK (R111): InvalidLength when `CAP < need`, else the iteration starts. -/
def checkStep (d : Driver) (s : State) : State :=
  if s.capacity < need d s.inputLength then complete .invalidLength 0 false 0 s
  else { s with idx := 0, err := false, phase := .full }

/-- One full chunk of ENCODE, at `i = IDX` (R112, R91). -/
def encodeChunk (s : State) : Except Refusal State := do
  let i := s.idx.toNat
  let b0 ← readSrc s (3 * i)
  let b1 ← readSrc s (3 * i + 1)
  let b2 ← readSrc s (3 * i + 2)
  let t ← writeDst s (4 * i) (quadBytes (enc3 ⟨b0, b1, b2⟩))
  return { t with idx := s.idx + 1 }

/-- One full group of DECODE, at `i = IDX` (R113, R100). The bytes are written whether or not the group is valid. -/
def decodeGroup (s : State) : Except Refusal State := do
  let i := s.idx.toNat
  let s0 ← readSrc s (4 * i)
  let s1 ← readSrc s (4 * i + 1)
  let s2 ← readSrc s (4 * i + 2)
  let s3 ← readSrc s (4 * i + 3)
  let d := dec4 ⟨s0, s1, s2, s3⟩
  let t ← writeDst s (3 * i) (tripleBytes d.bytes)
  return { t with err := accumulate s.err d.invalid, idx := s.idx + 1 }

/-- FULL (R112 to R114): one chunk while `IDX < full`, then `PHASE <- REM`; `IDX > full` has no successor (U8). -/
def fullStep (d : Driver) (s : State) : Out :=
  if s.idx.toNat < fullChunks d s.inputLength then
    toOut (match d with
      | .encode => encodeChunk s
      | .decode => decodeGroup s)
  else if s.idx.toNat = fullChunks d s.inputLength then .next { s with phase := .rem }
  else .fault .indexPastEnd

/-- The remainder of ENCODE (R92, R115): the one or two bytes left, zero-padded, of whose symbols the first `rem + 1` are kept.
With no remainder nothing is read or written. -/
def encodeRemainder (s : State) : Except Refusal State := do
  let full := fullChunks .encode s.inputLength
  let rem := remainder .encode s.inputLength
  if rem = 0 then
    return { s with phase := .fin }
  else
    let t0 ← readSrc s (3 * full)
    let t1 ← readSrcOr (rem == 2) s (3 * full + 1) 0x00
    let t ← writeDst s (4 * full) ((quadBytes (enc3 ⟨t0, t1, 0x00⟩)).take (rem + 1))
    return { t with phase := .fin }

/-- The remainder of DECODE (R101, R102, R116), with the padding symbol as an argument: the symbols left, padded to four, are
decoded for every `rem`, and the first `k` bytes are kept. -/
def decodeRemainderWith (filler : Byte) (s : State) : Except Refusal State := do
  let full := fullChunks .decode s.inputLength
  let rem := remainder .decode s.inputLength
  let t0 ← readSrcOr (1 ≤ rem) s (4 * full) filler
  let t1 ← readSrcOr (2 ≤ rem) s (4 * full + 1) filler
  let t2 ← readSrcOr (rem == 3) s (4 * full + 2) filler
  let d := dec4 ⟨t0, t1, t2, filler⟩
  let t ← writeDst s (3 * full) ((tripleBytes d.bytes).take (remainderBytes rem))
  return { t with err := accumulate (accumulate s.err (loneSymbol rem)) d.invalid, phase := .fin }

/-- The remainder of DECODE with the block's `FILLER` (R7, R116). -/
def decodeRemainder (s : State) : Except Refusal State := decodeRemainderWith Config.filler s

/-- REM (R115, R116), taken for every `rem`. -/
def remStep (d : Driver) (s : State) : Out :=
  toOut (match d with
    | .encode => encodeRemainder s
    | .decode => decodeRemainder s)

/-- FIN of ENCODE (R117): `complete(OK, need, 0, 0)`. -/
def encodeFinish (s : State) : State := complete .ok (rlenOf (need .encode s.inputLength)) false 0 s

/-- FIN of DECODE (R118), the single place where `ERR` is read. -/
def decodeFinish (s : State) : State :=
  complete (decodeStatus s.err) (if s.err then 0 else rlenOf (need .decode s.inputLength)) s.err 0 s

/-- FIN (R117, R118). -/
def finStep (d : Driver) (s : State) : State :=
  match d with
  | .encode => encodeFinish s
  | .decode => decodeFinish s

/-- The one micro-step that is enabled (R111 to R118). An idle block does nothing (R137); a busy block with no driver in
`CMD` is stuck (U8). -/
def microStep (s : State) : Out :=
  match s.phase, driverOf s.cmd with
  | .idle, _ => .next s
  | .check, some d => .next (checkStep d s)
  | .full, some d => fullStep d s
  | .rem, some d => remStep d s
  | .fin, some d => .next (finStep d s)
  | .check, none | .full, none | .rem, none | .fin, none => .fault .noDriverRunning

end Sys2Proof.Machine
end

