-- ==== Sys2Proof/Machine/Protocol.lean ====
section
/-! DEFINITION. The moves of the host (R19, R34, R56, R138, R142 to R146), and the lines of the host notation as sequences of
moves. -/

namespace Sys2Proof.Machine

/-- A flag as a number. -/
def flagValue (b : Bool) : Nat := if b then 1 else 0

/-- The value the host finds when it reads (R19), as an unsigned number. -/
def readValue (s : State) : ReadTarget → Except Refusal Nat
  | .a => .ok s.operandA.toNat
  | .n => .ok s.inputLength
  | .cap => .ok s.capacity
  | .r => .ok s.r.toNat
  | .rlen => .ok s.rlen.toNat
  | .inv => .ok (flagValue s.inv)
  | .status => .ok (statusCode s.status).toNat
  | .busy => .ok (flagValue (decide (s.phase ≠ .idle)))
  | .src i => (readSrc s i).map BitVec.toNat
  | .dst i => (readDst s i).map BitVec.toNat

/-- A read: its one effect is that the host has seen the value (R19). -/
def hostRead (s : State) (what : ReadTarget) : Out :=
  match readValue s what with
  | .ok v => .next { s with seen := ⟨what, v⟩ :: s.seen }
  | .error e => .refused e

/-- The host's next move `m`, with `rest` to follow. Every access but the reading of `busy` is allowed only while
`PHASE = IDLE` (R19, R25, R144 to R146). While it waits, or for one `tick`, a busy block takes its micro-step. -/
def hostMove (m : HostMove) (rest : List HostMove) (s : State) : Out :=
  let t := { s with script := rest }
  match m with
  | .setA v => whenIdle .operandWriteWhileBusy t (.next { t with a := v, aWritten := true })
  | .setN v => whenIdle .operandWriteWhileBusy t (.next { t with n := v, nWritten := true })
  | .setCap v => whenIdle .operandWriteWhileBusy t (.next { t with cap := v, capWritten := true })
  | .writeSrc i b => whenIdle .operandWriteWhileBusy t (toOut (writeSrc t i b))
  | .writeDst i b => whenIdle .accessWhileBusy t (toOut (writeDst t i [b]))
  | .issue op => exec (decodePort op) t
  | .wait => if s.phase = .idle then .next t else microStep s
  | .tick => microStep t
  | .read .busy => hostRead t .busy
  | .read what => whenIdle .accessWhileBusy t (hostRead t what)
  | .reset => .next (resetBlock t)

/-- The moves that write bytes at ascending indexes from `i` (R12). -/
def movesAscending (write : Nat → Byte → HostMove) : Nat → List Byte → List HostMove
  | _, [] => []
  | i, b :: bs => write i b :: movesAscending write (i + 1) bs

/-- A line of the host notation as the moves it stands for (R56): a mnemonic line issues the command and waits until
`PHASE = IDLE` again. -/
def lineMoves : HostLine → List HostMove
  | .setA v => [.setA v]
  | .setN v => [.setN v]
  | .setCap v => [.setCap v]
  | .loadSrc i bytes => movesAscending .writeSrc i bytes
  | .fillDst i k b => movesAscending .writeDst i (List.replicate k b)
  | .command c => [.issue (encode c), .wait]

end Sys2Proof.Machine
end

