-- ==== Sys2Proof/Machine/Step.lean ====
section
/-! DEFINITION. One step of the machine, and how the host puts a word on the command port. -/

namespace Sys2Proof.Machine

/-- One step: the host's next move, or, when it has none left, the block's micro-step (R47, R109, R119; an idle block with
no command presented does nothing, R137). -/
def step (s : State) : Host.Outcome State Fault Refusal :=
  match s.script with
  | [] => microStep s
  | m :: rest => hostMove m rest s

/-- The state in which the very next step presents the command of the word `w` (notes/assumptions/5.md): the host's next move
issues it, the block is idle, as R47 asks of a command that is presented, and what the operand registers hold counts as
written, as R142 asks. -/
def State.withFetchWord (s : State) (nbits w : Nat) : State :=
  { s with
    phase := .idle, aWritten := true, nWritten := true, capWritten := true,
    script := .issue (portCode (w % 2 ^ nbits)) :: s.script }

end Sys2Proof.Machine
end

