-- ==== Sys2Proof/Machine/Reference.lean ====
section
/-! DEFINITION. The functions of the document on whole byte sequences, beside the micro-steps that carry them out: the alphabet
as a table (R66, R72), the encode driver's output (R91, R92, R95), the decode driver's output and verdict (R100 to R103). No
step of the machine uses them; claims compare the machine with them. -/

namespace Sys2Proof.Machine

/-- The alphabet's byte at an index, by R66's table; an index is below 64. -/
def alphabetByte (v : Nat) : Nat :=
  if v < 26 then v + 65
  else if v < 52 then v + 71
  else if v < 62 then v - 4
  else if v = 62 then 0x2B
  else 0x2F

/-- The index of an alphabet byte, by R72's table; none for the other 192 byte values. -/
def alphabetIndex (s : Nat) : Option Nat :=
  if 0x41 ≤ s ∧ s ≤ 0x5A then some (s - 65)
  else if 0x61 ≤ s ∧ s ≤ 0x7A then some (s - 71)
  else if 0x30 ≤ s ∧ s ≤ 0x39 then some (s + 4)
  else if s = 0x2B then some 62
  else if s = 0x2F then some 63
  else none

/-- Is the byte one of the 64 characters of the alphabet? -/
def inAlphabet (b : Byte) : Bool := (alphabetIndex b.toNat).isSome

/-- Are all four symbols of a quad in the alphabet? -/
def quadInAlphabet (q : Quad) : Bool := inAlphabet q.s0 && inAlphabet q.s1 && inAlphabet q.s2 && inAlphabet q.s3

/-- ENCODE as one function (R95): ENC3 of each full chunk, then the first `rem + 1` symbols of ENC3 of the zero-padded
remainder. -/
def encodeText : List Byte → List Byte
  | b0 :: b1 :: b2 :: rest => quadBytes (enc3 ⟨b0, b1, b2⟩) ++ encodeText rest
  | [b0, b1] => (quadBytes (enc3 ⟨b0, b1, 0x00⟩)).take 3
  | [b0] => (quadBytes (enc3 ⟨b0, 0x00, 0x00⟩)).take 2
  | [] => []

/-- The eight bits of a byte, most significant first. -/
def byteBits (b : Byte) : List Bool :=
  [b.getLsbD 7, b.getLsbD 6, b.getLsbD 5, b.getLsbD 4, b.getLsbD 3, b.getLsbD 2, b.getLsbD 1, b.getLsbD 0]

/-- A 6-bit value from its bits, most significant first. -/
def sextet (b5 b4 b3 b2 b1 b0 : Bool) : BitVec 6 :=
  BitVec.ofBool b5 ++ BitVec.ofBool b4 ++ BitVec.ofBool b3 ++ BitVec.ofBool b2 ++ BitVec.ofBool b1 ++ BitVec.ofBool b0

/-- A bit string cut into 6-bit groups, with 0 bits appended until its length is a multiple of 6 (R95). -/
def sextets : List Bool → List (BitVec 6)
  | b5 :: b4 :: b3 :: b2 :: b1 :: b0 :: rest => sextet b5 b4 b3 b2 b1 b0 :: sextets rest
  | [b5, b4, b3, b2, b1] => [sextet b5 b4 b3 b2 b1 false]
  | [b5, b4, b3, b2] => [sextet b5 b4 b3 b2 false false]
  | [b5, b4, b3] => [sextet b5 b4 b3 false false false]
  | [b5, b4] => [sextet b5 b4 false false false false]
  | [b5] => [sextet b5 false false false false false]
  | [] => []

/-- ENCODE by R95's other description: the input as one bit string, cut into 6-bit groups, ENC6 of each. -/
def encodeBitString (input : List Byte) : List Byte := (sextets (input.flatMap byteBits)).map enc6

/-- DECODE's bytes (R100, R102): the three bytes of each full group, then the leading 0, 1 or 2 bytes of the padded
remainder. -/
def decodeBytes : List Byte → List Byte
  | s0 :: s1 :: s2 :: s3 :: rest => tripleBytes (dec4 ⟨s0, s1, s2, s3⟩).bytes ++ decodeBytes rest
  | [s0, s1, s2] => (tripleBytes (dec4 ⟨s0, s1, s2, Config.filler⟩).bytes).take 2
  | [s0, s1] => (tripleBytes (dec4 ⟨s0, s1, Config.filler, Config.filler⟩).bytes).take 1
  | [_] => []
  | [] => []

/-- Is the text one that DECODE accepts, given room for its output (R106): every byte in the alphabet, and a length that does
not leave 1 modulo 4? -/
def acceptable (text : List Byte) : Bool := text.all inAlphabet && !(text.length % 4 == 1)

/-- A decoded value that is no alphabet index, as a number: -1 (R72). -/
def decodedValue (s : Byte) : Int :=
  match alphabetIndex s.toNat with
  | some v => (v : Int)
  | none => -1

end Sys2Proof.Machine
end

