-- ==== Sys2Proof/Safety.lean ====
section
/-! DEFINITION. What claims about the machine are stated in: the invariant of its states, the host that keeps the protocol,
the states from which a command runs, and the states that differ in secrets only. -/

namespace Sys2Proof.Machine

/-- `k` steps of the machine. -/
abbrev runSteps (k : Nat) (s : State) : Out := Host.Core.run Sys2Proof.core k s

/-! ## The invariant -/

/-- What holds while the driver `d` is in progress (R24, R111 to R118, R143; 93_implementation_defined.md U8). -/
structure DriverInv (d : Driver) (s : State) : Prop where
  /-- R143, checked at the issue. -/
  input_fits : s.inputLength ≤ s.srcSize
  /-- R143, checked at the issue. -/
  offer_fits : s.capacity ≤ s.dstSize
  /-- The length check has passed (R40, R111). -/
  room : s.phase ≠ .check → need d s.inputLength ≤ s.capacity
  /-- `IDX ≤ full` (R114, U8). -/
  in_range : s.phase = .full → s.idx.toNat ≤ fullChunks d s.inputLength
  /-- `IDX` stops at `full` (R24). -/
  at_end : s.phase = .rem ∨ s.phase = .fin → s.idx.toNat = fullChunks d s.inputLength
  /-- ENCODE sets `ERR` to 0 and never changes it (R23). -/
  no_error_in_encode : d = .encode → s.phase ≠ .check → s.err = false

/-- The invariant of the machine's states. -/
structure Inv (s : State) : Prop where
  src_canonical : Memory.wf s.src
  dst_canonical : Memory.wf s.dst
  src_inside : ∀ c ∈ s.src, c.1 < s.srcSize
  dst_inside : ∀ c ∈ s.dst, c.1 < s.dstSize
  /-- Each memory has at most `2^LENW` locations (R31, R32). -/
  src_size : s.srcSize ≤ Config.indexCount
  dst_size : s.dstSize ≤ Config.indexCount
  /-- `PHASE ≠ IDLE → CMD ∈ {6, 7}` (U8), and the rest of `DriverInv`. -/
  driver : s.phase ≠ .idle → ∃ d, driverOf s.cmd = some d ∧ DriverInv d s
  /-- An error leaves no output view and nothing in `R` (R123, R124, decision D13). -/
  error_empty : s.status ≠ .ok → s.rlen = 0 ∧ s.r = 0
  /-- R20's rows for a driver that ends in an error. -/
  length_error_flag : s.status = .invalidLength → s.inv = false
  encoding_error_flag : s.status = .invalidEncoding → s.inv = true

/-! ## The host's protocol -/

/-- The host waits: it has no further move, or its next one is to wait until the block is idle. -/
def HostWaits (s : State) : Prop := s.script.head? = none ∨ s.script.head? = some .wait

/-- Every byte of the input `SRC[0 .. N-1]` has been written since reset (R142). -/
def SourceWritten (s : State) : Prop := ∀ i, i < s.inputLength → (memRead s.src i).isSome = true

/-- Every operand that the command reads has been written since reset (R49, R142). -/
def OperandsWritten (i : Instr) (s : State) : Prop :=
  match i with
  | .enclen => s.nWritten = true
  | .declen => s.nWritten = true
  | .enc6 => s.aWritten = true
  | .dec6 => s.aWritten = true
  | .enc3 => s.aWritten = true
  | .dec4 => s.aWritten = true
  | .encode => s.nWritten = true ∧ s.capWritten = true ∧ SourceWritten s
  | .decode => s.nWritten = true ∧ s.capWritten = true ∧ SourceWritten s

/-- Where a driver is in progress, its input has been written. A host that keeps R142 at every issue keeps this. -/
def BlockReady (s : State) : Prop := s.phase ≠ .idle → SourceWritten s

/-- The host's move keeps its duties (R19, R140, R142 to R146). -/
def MoveAllowed (s : State) : HostMove → Prop
  | .setA _ => s.phase = .idle
  | .setN _ => s.phase = .idle
  | .setCap _ => s.phase = .idle
  | .writeSrc i _ => s.phase = .idle ∧ i < s.srcSize
  | .writeDst i _ => s.phase = .idle ∧ i < s.dstSize
  | .issue op => s.phase = .idle ∧ OperandsWritten (decodePort op) s ∧
    ((driverOf op).isSome = true → s.inputLength ≤ s.srcSize ∧ s.capacity ≤ s.dstSize)
  | .wait => True
  | .tick => True
  | .read .busy => True
  | .read (.src i) => s.phase = .idle ∧ i < s.srcSize ∧ (memRead s.src i).isSome = true
  | .read (.dst i) => s.phase = .idle ∧ i < s.dstSize ∧ (memRead s.dst i).isSome = true
  | .read .a => s.phase = .idle ∧ s.aWritten = true
  | .read .n => s.phase = .idle ∧ s.nWritten = true
  | .read .cap => s.phase = .idle ∧ s.capWritten = true
  | .read .r | .read .rlen | .read .inv | .read .status => s.phase = .idle
  | .reset => True

/-- The host keeps its duties in the step that comes; with no move to make it has none. -/
def ProtocolKept (s : State) : Prop :=
  match s.script with
  | [] => True
  | m :: _ => MoveAllowed s m

/-! ## Runs of a driver -/

/-- The block is idle, the host is about to wait, `N` bytes `input` stand in `SRC` from index 0, and `N` and `CAP` are within
the memories: a state in which a driver command can be issued and run (R142, R143). -/
structure Ready (s : State) (input : List Byte) : Prop where
  idle : s.phase = .idle
  waits : HostWaits s
  length : input.length = s.inputLength
  holds : ∀ i (h : i < input.length), memRead s.src i = some input[i]
  input_fits : s.inputLength ≤ s.srcSize
  offer_fits : s.capacity ≤ s.dstSize

/-- The six commands that complete in the step that issues them (R110). -/
def isShort : Instr → Bool
  | .enclen => true
  | .declen => true
  | .enc6 => true
  | .dec6 => true
  | .enc3 => true
  | .dec4 => true
  | .encode => false
  | .decode => false

/-- The command that starts a driver. -/
def driverCommandOf : Driver → Instr
  | .encode => .encode
  | .decode => .decode

/-- Where the next micro-step of the driver `d` stores, as the first index of `DST` and the number of bytes: a chunk in FULL, the
remainder in REM, nothing elsewhere (R112 to R116). -/
def storedAt (d : Driver) (s : State) : Nat × Nat :=
  match d, s.phase with
  | .encode, .full => if s.idx.toNat < fullChunks .encode s.inputLength then (4 * s.idx.toNat, 4) else (0, 0)
  | .decode, .full => if s.idx.toNat < fullChunks .decode s.inputLength then (3 * s.idx.toNat, 3) else (0, 0)
  | .encode, .rem =>
    if remainder .encode s.inputLength = 0 then (0, 0)
    else (4 * fullChunks .encode s.inputLength, remainder .encode s.inputLength + 1)
  | .decode, .rem => (3 * fullChunks .decode s.inputLength, remainderBytes (remainder .decode s.inputLength))
  | _, .idle | _, .check | _, .fin => (0, 0)

/-- What the next micro-step of the driver `d` reads, as the first index of `SRC` and the number of bytes: a chunk in FULL, the
remainder in REM, nothing elsewhere (R112 to R116). -/
def chunkReads (d : Driver) (s : State) : Nat × Nat :=
  match d, s.phase with
  | .encode, .full => if s.idx.toNat < fullChunks .encode s.inputLength then (3 * s.idx.toNat, 3) else (0, 0)
  | .decode, .full => if s.idx.toNat < fullChunks .decode s.inputLength then (4 * s.idx.toNat, 4) else (0, 0)
  | .encode, .rem => (3 * fullChunks .encode s.inputLength, remainder .encode s.inputLength)
  | .decode, .rem => (4 * fullChunks .decode s.inputLength, remainder .decode s.inputLength)
  | _, .idle | _, .check | _, .fin => (0, 0)

/-! ## Secrets -/

/-- A host move with its data taken out: what it writes to `A`, `SRC` or `DST`. Lengths are no secret (R147). -/
def moveShape : HostMove → HostMove
  | .setA _ => .setA 0
  | .writeSrc i _ => .writeSrc i 0
  | .writeDst i _ => .writeDst i 0
  | .setN v => .setN v
  | .setCap v => .setCap v
  | .issue op => .issue op
  | .wait => .wait
  | .tick => .tick
  | .read what => .read what
  | .reset => .reset

/-- The indexes of a memory that hold a byte. -/
def addresses (m : Memory) : List Nat := m.map Prod.fst

/-- The two states agree in all that R147 lets a command's course depend on: the command, the lengths, where the iteration is,
which operands and bytes have been written, and what the host is to do, its data apart. `A`, the bytes of both memories, `ERR`
and the result registers may differ. -/
structure Alike (s t : State) : Prop where
  n : s.n = t.n
  cap : s.cap = t.cap
  aWritten : s.aWritten = t.aWritten
  nWritten : s.nWritten = t.nWritten
  capWritten : s.capWritten = t.capWritten
  phase : s.phase = t.phase
  cmd : s.cmd = t.cmd
  idx : s.idx = t.idx
  src : addresses s.src = addresses t.src
  dst : addresses s.dst = addresses t.dst
  srcSize : s.srcSize = t.srcSize
  dstSize : s.dstSize = t.dstSize
  script : s.script.map moveShape = t.script.map moveShape
  seen : s.seen.map Observation.what = t.seen.map Observation.what
  freeTick : s.freeTick = t.freeTick

/-- The two outcomes are of one kind: next states that are alike, or the same fault, or the same refusal. -/
def OutcomesAlike : Out → Out → Prop
  | .next s, .next t => Alike s t
  | .fault e, .fault f => e = f
  | .refused e, .refused f => e = f
  | _, _ => False

end Sys2Proof.Machine
end

