-- ==== Sys2Proof/WellFormed.lean ====
section
/-! DEFINITION. Which terms of the syntax stand for something the spec admits. -/

namespace Sys2Proof

/-- Every command is well formed: a command code has no operand field and no reserved value (R47, R54, R55). -/
def Instr.wellFormed : Instr → Bool
  | .enclen => true
  | .declen => true
  | .enc6 => true
  | .dec6 => true
  | .enc3 => true
  | .dec4 => true
  | .encode => true
  | .decode => true

/-- A memory index is a `LENW`-bit unsigned number (R31, R32). -/
def indexOk (i : Nat) : Bool := decide (i < Config.indexCount)

/-- A read names a register or an index that exists in some embodiment of the block. -/
def ReadTarget.wellFormed : ReadTarget → Bool
  | .src i => indexOk i
  | .dst i => indexOk i
  | .a | .n | .cap | .r | .rlen | .inv | .status | .busy => true

/-- A host move names an index that exists in some embodiment of the block. -/
def HostMove.wellFormed : HostMove → Bool
  | .writeSrc i _ => indexOk i
  | .writeDst i _ => indexOk i
  | .read what => what.wellFormed
  | .setA _ | .setN _ | .setCap _ | .issue _ | .wait | .tick | .reset => true

/-- A line of the host notation touches only indexes that exist in some embodiment of the block. -/
def HostLine.wellFormed : HostLine → Bool
  | .loadSrc i bytes => decide (i + bytes.length ≤ Config.indexCount)
  | .fillDst i k _ => decide (i + k ≤ Config.indexCount)
  | .command c => c.wellFormed
  | .setA _ | .setN _ | .setCap _ => true

end Sys2Proof
end

