-- ==== Sys2Proof/Certificates/Slice0/Obligations.lean ====
section
/-! DEFINITION. The statements for the provers. Each says in its docstring which rule of spec/ it formalises. -/

open Sys2Proof Sys2Proof.Machine

/-! ## Command codes -/

/-- R48: the opcode map, and the decoder as `match = op`, `mask = 0b111`: each row's pattern decodes to the row's command, and
every one of the eight codes is admitted by exactly the row of the command it decodes to. -/
def Obligations.EveryCodeIsItsCommand : Prop :=
  decodePort 0 = .enclen ∧ decodePort 1 = .declen ∧ decodePort 2 = .enc6 ∧ decodePort 3 = .dec6 ∧
  decodePort 4 = .enc3 ∧ decodePort 5 = .dec4 ∧ decodePort 6 = .encode ∧ decodePort 7 = .decode ∧
  (∀ row ∈ codeTable, row.mask = 7 ∧ encode row.command = row.pattern) ∧
  (∀ op, (codeTable.filter (·.admits op)).map CodeRow.command = [decodePort op])

/-- 30_encoding.md sections 1 and 3: decoding and encoding are inverse both ways, every command is well formed, and the table's
word of a command decodes to it. -/
def Obligations.DecodeAndEncodeAgree : Prop :=
  (∀ i, Instr.wellFormed i = true ∧ decodePort (encode i) = i ∧ decodeTableWord 8 (encode i).toNat = some i) ∧
  (∀ op, encode (decodePort op) = op)

/-- A step runs the command presented: the host's move `issue op` is `exec` of the decoded command, the move taken off the
host's script, which is the model's (notes/assumptions/4.md). The same holds of a word that `withFetchWord` puts at the head of
the script, with the block idle and the operands counted as written (the model's choice, notes/assumptions/5.md), for a word of
three bits or more, whose bits above bit 2 are not looked at (the model's choice, notes/assumptions/6.md). -/
def Obligations.StepRunsThePresentedCommand : Prop :=
  (∀ (s : State) (op : Code) (rest : List HostMove), s.script = .issue op :: rest →
    step s = exec (decodePort op) { s with script := rest }) ∧
  (∀ (s : State) (nbits w : Nat), 3 ≤ nbits → ∃ i, decodeTableWord nbits w = some i ∧
    step (s.withFetchWord nbits w) =
      exec i { s with phase := .idle, aWritten := true, nWritten := true, capWritten := true })

/-! ## Reset -/

/-- 70_reset_and_hazards.md section 1: the values reset leaves, in the rows of R139's table that state one, and that no operand
register has been written since. Of the rows that say "unspecified", `A`, `N` and `CAP` are not spoken of. That no byte of `SRC`
or `DST` has a value is the model's choice (notes/assumptions/2.md), where the spec says "unspecified". -/
def Obligations.ResetLeavesTheSpecifiedValues : Prop :=
  State.reset.phase = .idle ∧ State.reset.cmd = 0 ∧ State.reset.idx = 0 ∧ State.reset.err = false ∧
  State.reset.r = 0 ∧ State.reset.rlen = 0 ∧ State.reset.inv = false ∧ statusCode State.reset.status = 0 ∧
  State.reset.aWritten = false ∧ State.reset.nWritten = false ∧ State.reset.capWritten = false ∧
  (∀ i, memRead State.reset.src i = none ∧ memRead State.reset.dst i = none)

/-- 70_reset_and_hazards.md section 1: reset applied by the host at any moment puts the block into the state of R139 at once,
whatever it was doing; no operand register and no byte of `SRC` has been written since; `DST` keeps the bytes it held (R141).
That `DST` keeps every byte, that the host's side goes on, and that the counter of the free values advances by three, are the
model's choices (notes/assumptions/10.md, 11.md). -/
def Obligations.ResetAbandonsACommand : Prop :=
  ∀ (s : State) (rest : List HostMove), s.script = .reset :: rest →
    ∃ t, step s = .next t ∧ t.phase = .idle ∧ t.cmd = 0 ∧ t.idx = 0 ∧ t.err = false ∧ t.r = 0 ∧ t.rlen = 0 ∧
      t.inv = false ∧ t.status = .ok ∧ (∀ i, memRead t.src i = none) ∧ (∀ i, memRead t.dst i = memRead s.dst i) ∧
      t.aWritten = false ∧ t.nWritten = false ∧ t.capWritten = false ∧ t.freeTick = s.freeTick + 3 ∧
      t.srcSize = s.srcSize ∧ t.dstSize = s.dstSize ∧ t.script = rest ∧ t.seen = s.seen

/-! ## The length commands -/

/-- R60: the function, its closed forms (the spec's own derivations), its corner cases, and the command's whole effect. -/
def Obligations.EnclenIsTheEncodedLength : Prop :=
  (∀ n, enclen n = 4 * n / 3 + (if 4 * n % 3 ≠ 0 then 1 else 0) ∧ enclen n = (4 * n + 2) / 3 ∧
    enclen n = 4 * (n / 3) + (if n % 3 = 0 then 0 else n % 3 + 1) ∧ enclen n % 4 ≠ 1) ∧
  enclen 0 = 0 ∧ enclen 1 = 2 ∧ enclen (2 ^ 32 - 1) = 5726623060 ∧ decodePort 0 = .enclen ∧
  (∀ s : State, s.phase = .idle →
    exec .enclen s = .next { s with
      cmd := 0, status := .ok, rlen := BitVec.ofNat 33 (enclen s.inputLength), inv := false, r := 0 })

/-- R61: `RLEN` holds the exact result for every `N`; a 32-bit register would fail from `N = 3 * 2^30` on, and there an ENCODE
ends in InvalidLength for every `CAP`. -/
def Obligations.EncodedLengthFitsRlen : Prop :=
  (∀ n, n < 2 ^ 32 → enclen n ≤ enclen (2 ^ 32 - 1) ∧ enclen n < 2 ^ 33 ∧ 4 * n < 2 ^ 34 ∧ (2 ^ 32 ≤ enclen n ↔ 3 * 2 ^ 30 ≤ n)) ∧
  enclen 3221225471 = 4294967295 ∧ enclen 3221225472 = 4294967296 ∧
  (∀ s t : State, exec .enclen s = .next t → t.rlen.toNat = enclen s.inputLength) ∧
  (∀ s : State, s.phase = .check → s.cmd = 6 → HostWaits s → 3 * 2 ^ 30 ≤ s.inputLength →
    step s = .next { s with status := .invalidLength, rlen := 0, inv := false, r := 0, phase := .idle })

/-- R62: the function, its closed form (the spec's own derivation), its bound, its corner cases, and the command's whole effect,
which is the same for `N mod 4 = 1`. -/
def Obligations.DeclenIsTheDecodedLength : Prop :=
  (∀ m, declen m = 3 * m / 4 ∧ declen m = 3 * (m / 4) + 3 * (m % 4) / 4 ∧ declen m ≤ m ∧ (m < 2 ^ 32 → 3 * m < 2 ^ 34)) ∧
  declen 0 = 0 ∧ declen 1 = 0 ∧ declen 5 = 3 ∧ declen 4 = 3 ∧ decodePort 1 = .declen ∧
  (∀ s : State, s.phase = .idle → ∃ t, exec .declen s = .next t ∧ t.rlen.toNat = declen s.inputLength ∧
    t = { s with cmd := 1, status := .ok, rlen := BitVec.ofNat 33 (declen s.inputLength), inv := false, r := 0 })

/-- R63 (which the spec marks as derived): the decoded length of an encoded length is the length; the other way fails exactly when
`m mod 4 = 1`, where it gives `m - 1`; DECLEN does not fail there. -/
def Obligations.LengthsAreInverseButForOne : Prop :=
  (∀ n, declen (enclen n) = n) ∧
  (∀ m, m % 4 ≠ 1 → enclen (declen m) = m) ∧
  (∀ m, m % 4 = 1 → enclen (declen m) = m - 1) ∧
  (∀ s : State, s.phase = .idle → ∃ t, exec .declen s = .next t ∧ t.status = .ok)

/-! ## The symbol commands -/

/-- R64: ENC6 leaves the alphabet's character for `A[5:0]` in `R`, whatever `A[31:6]` holds. -/
def Obligations.Enc6GivesTheCharacter : Prop :=
  (∀ s : State, s.phase = .idle →
    exec .enc6 s = .next { s with
      cmd := 2, status := .ok, rlen := 0, inv := false, r := BitVec.ofNat 32 (alphabetByte (s.operandA.toNat % 64)) }) ∧
  decodePort 2 = .enc6 ∧ alphabetByte 26 = 0x61

/-- R66 (which the spec marks as derived): the symbol encoder is the alphabet's table; it is injective, and its image is exactly
the 64 alphabet bytes. -/
def Obligations.SymbolEncoderIsTheAlphabet : Prop :=
  (∀ v : BitVec 6, (enc6 v).toNat = alphabetByte v.toNat) ∧
  (∀ v w : BitVec 6, enc6 v = enc6 w → v = w) ∧
  (∀ b : Byte, inAlphabet b = true ↔ ∃ v, enc6 v = b)

/-- R70: DEC6 leaves the decoded value of `A[7:0]`, sign-extended, in `R`, and its bit 8 in `INV`; its status is always OK. -/
def Obligations.Dec6GivesValueAndValidity : Prop :=
  (∀ s : State, s.phase = .idle →
    exec .dec6 s = .next { s with
      cmd := 3, status := .ok, rlen := 0, inv := !(inAlphabet (BitVec.ofNat 8 s.operandA.toNat)),
      r := BitVec.ofInt 32 (decodedValue (BitVec.ofNat 8 s.operandA.toNat)) }) ∧
  (∀ s : State, s.phase = .idle → ∃ t, exec .dec6 s = .next t ∧ t.inv = t.r.getLsbD 8) ∧
  decodePort 3 = .dec6 ∧ decodedValue 0x2F = 63 ∧ decodedValue 0x3D = -1

/-- R72 (which the spec marks as derived): the symbol decoder is the table, its results are -1 and 0 to 63, and it inverts the
symbol encoder both ways. -/
def Obligations.SymbolDecoderIsTheTable : Prop :=
  (∀ b : Byte, (dec6 b).toInt = decodedValue b) ∧
  (∀ k : Int, (∃ b : Byte, (dec6 b).toInt = k) ↔ k = -1 ∨ (0 ≤ k ∧ k ≤ 63)) ∧
  (∀ v : BitVec 6, (dec6 (enc6 v)).toNat = v.toNat) ∧
  (∀ b : Byte, inAlphabet b = true → enc6 (BitVec.ofNat 6 (dec6 b).toNat) = b)

/-- 42_symbol_decoder.md, the validity flag: a byte outside the alphabet decodes to all bits 1, bit 8 among them; an alphabet
byte decodes to a value whose bits from 6 up are 0. -/
def Obligations.ValidityIsBitEight : Prop :=
  ∀ b : Byte, (dec6 b).getLsbD 8 = !(inAlphabet b) ∧
    (inAlphabet b = true → ∀ i, 6 ≤ i → (dec6 b).getLsbD i = false) ∧
    (inAlphabet b = false → ∀ i, i < 16 → (dec6 b).getLsbD i = true)

/-- 00_scope.md section 4: every width `W` from 10 upward gives the same result for every input, of the symbol encoder, of the
symbol decoder and of the quad decoder. -/
def Obligations.TenBitsSufficeForSymbolArithmetic : Prop :=
  ∀ w, 10 ≤ w →
    (∀ v : BitVec 6, enc6At w v = enc6 v) ∧
    (∀ b : Byte, (dec6At w b).toInt = (dec6 b).toInt) ∧
    (∀ q : Quad, dec4At w q = dec4 q)

/-! ## The chunk commands -/

/-- R77: ENC3 leaves in `R` the symbols of the four 6-bit groups of `A[23:0]`, first group in the top lane, whatever `A[31:24]`
holds. -/
def Obligations.Enc3EncodesFourGroups : Prop :=
  (∀ s : State, s.phase = .idle →
    exec .enc3 s = .next { s with
      cmd := 4, status := .ok, rlen := 0, inv := false,
      r := enc6 (s.operandA.extractLsb' 18 6) ++ enc6 (s.operandA.extractLsb' 12 6) ++ enc6 (s.operandA.extractLsb' 6 6)
        ++ enc6 (s.operandA.extractLsb' 0 6) }) ∧
  decodePort 4 = .enc3 ∧ enc3Result (enc3 (enc3Operand 0x00001083)) = 0x41424344

/-- R78 (which the spec marks as derived): the 24-bit layout of the triplet encoder, and the same in shifts and masks on the bytes. -/
def Obligations.TripletGroupsByShiftAndMask : Prop :=
  ∀ b0 b1 b2 : Byte,
    enc3 ⟨b0, b1, b2⟩ =
      ⟨enc6 ((b0 ++ b1 ++ b2).extractLsb' 18 6), enc6 ((b0 ++ b1 ++ b2).extractLsb' 12 6),
       enc6 ((b0 ++ b1 ++ b2).extractLsb' 6 6), enc6 ((b0 ++ b1 ++ b2).extractLsb' 0 6)⟩ ∧
    enc3 ⟨b0, b1, b2⟩ =
      ⟨enc6 ((b0 >>> 2).setWidth 6), enc6 ((((b0 &&& 0x03) <<< 4) ||| (b1 >>> 4)).setWidth 6),
       enc6 ((((b1 &&& 0x0F) <<< 2) ||| (b2 >>> 6)).setWidth 6), enc6 ((b2 &&& 0x3F).setWidth 6)⟩

/-- R80 (which the spec marks as derived): ENC3 cannot fail: it answers for every operand, every symbol is an alphabet byte, and
different triplets give different quads. -/
def Obligations.TripletEncoderIsInjective : Prop :=
  (∀ s : State, s.phase = .idle → ∃ t, exec .enc3 s = .next t ∧ t.status = .ok) ∧
  (∀ t : Triple, quadInAlphabet (enc3 t) = true) ∧
  (∀ t u : Triple, enc3 t = enc3 u → t = u)

/-- R82, with R83's formulas for the three bytes and the signal: DEC4 leaves three bytes in `R[23:0]`, 0 in `R[31:24]`, and the
signal in `INV`. -/
def Obligations.Dec4GivesBytesAndSignal : Prop :=
  (∀ s : State, s.phase = .idle →
    exec .dec4 s = .next { s with
      cmd := 5, status := .ok, rlen := 0,
      inv := (dec4 (dec4Operand s.operandA)).invalid,
      r := (0 : Byte) ++ (dec4 (dec4Operand s.operandA)).bytes.b0 ++ (dec4 (dec4Operand s.operandA)).bytes.b1
        ++ (dec4 (dec4Operand s.operandA)).bytes.b2 }) ∧
  (∀ a : Word, let q := dec4Operand a
    q.s0 ++ q.s1 ++ q.s2 ++ q.s3 = a ∧
    dec4 q =
      { bytes :=
          ⟨((dec6 q.s0 <<< 2) ||| (dec6 q.s1).sshiftRight 4).setWidth 8,
           ((dec6 q.s1 <<< 4) ||| (dec6 q.s2).sshiftRight 2).setWidth 8,
           ((dec6 q.s2 <<< 6) ||| dec6 q.s3).setWidth 8⟩
        invalid := ((dec6 q.s0 ||| dec6 q.s1 ||| dec6 q.s2 ||| dec6 q.s3).sshiftRight 8 &&& 1) == 1 }) ∧
  decodePort 5 = .dec4 ∧ dec4 ⟨0x2F, 0x2F, 0x2F, 0x2F⟩ = ⟨⟨0xFF, 0xFF, 0xFF⟩, false⟩

/-- R85 (which the spec marks as derived): the invalidity signal is 1 exactly when some symbol of the quad is no alphabet byte. -/
def Obligations.SignalMeansSomeSymbolInvalid : Prop :=
  ∀ q : Quad, (dec4 q).invalid = true ↔
    inAlphabet q.s0 = false ∨ inAlphabet q.s1 = false ∨ inAlphabet q.s2 = false ∨ inAlphabet q.s3 = false

/-- 44_quad_decoder.md, the three bytes: for four alphabet bytes they are the 24 bits of the four 6-bit values. -/
def Obligations.ValidQuadGivesItsBits : Prop :=
  ∀ q : Quad, quadInAlphabet q = true →
    chunkBits (dec4 q).bytes =
      (dec6 q.s0).setWidth 6 ++ (dec6 q.s1).setWidth 6 ++ (dec6 q.s2).setWidth 6 ++ (dec6 q.s3).setWidth 6

/-- R87 (which the spec marks as derived): the quad decoder inverts the triplet encoder, and on alphabet bytes the triplet encoder
inverts the quad decoder. -/
def Obligations.QuadDecoderInvertsTripletEncoder : Prop :=
  (∀ t : Triple, dec4 (enc3 t) = ⟨t, false⟩) ∧
  (∀ q : Quad, quadInAlphabet q = true → enc3 (dec4 q).bytes = q)

/-- 30_encoding.md section 2: feeding the `R` of an ENC3 as the `A` of a DEC4 returns in `R[23:0]` the `A[23:0]` the ENC3 was
given, with `INV = 0`. -/
def Obligations.RegisterPackingsAreInverse : Prop :=
  ∀ s : State, s.phase = .idle → ∃ t u, exec .enc3 s = .next t ∧ exec .dec4 { t with a := t.r, aWritten := true } = .next u ∧
    u.r = (s.operandA.extractLsb' 0 24).setWidth 32 ∧ u.inv = false

/-! ## All commands -/

/-- 47_chunk_iterator.md (R110), the frame of ENCLEN, DECLEN, ENC6, DEC6, ENC3 and DEC4: they complete in the step that issues
them, `PHASE` stays IDLE, `IDX` and `ERR` are not touched, no byte of either memory changes, no operand register changes. -/
def Obligations.ShortCommandsLeaveTheRestAlone : Prop :=
  ∀ (i : Instr) (s : State), isShort i = true → s.phase = .idle →
    ∃ t, exec i s = .next t ∧ t.phase = .idle ∧ t.cmd = encode i ∧ t.status = .ok ∧
      t.idx = s.idx ∧ t.err = s.err ∧ t.a = s.a ∧ t.n = s.n ∧ t.cap = s.cap ∧
      t.aWritten = s.aWritten ∧ t.nWritten = s.nWritten ∧ t.capWritten = s.capWritten ∧
      (∀ j, memRead t.src j = memRead s.src j) ∧ (∀ j, memRead t.dst j = memRead s.dst j) ∧
      t.srcSize = s.srcSize ∧ t.dstSize = s.dstSize ∧ t.script = s.script ∧ t.seen = s.seen ∧ t.freeTick = s.freeTick

/-- 10_state.md section 6: what a short command leaves in the result registers is a function of what `A` and `N` read as when it
is issued; nothing an earlier command left in any register or memory has a part in it. -/
def Obligations.ShortCommandsForgetTheState : Prop :=
  ∀ (i : Instr) (s t : State), isShort i = true → s.phase = .idle → t.phase = .idle →
    s.operandA = t.operandA → s.inputLength = t.inputLength →
    ∃ s' t', exec i s = .next s' ∧ exec i t = .next t' ∧
      s'.r = t'.r ∧ s'.rlen = t'.rlen ∧ s'.inv = t'.inv ∧ s'.status = t'.status

/-- R109: the issue of each command from IDLE latches its code; the short ones complete in the same step, and ENCODE and DECODE set
`PHASE` to CHECK and change nothing else. The two drivers are issued within the bounds that the host must keep (R143). -/
def Obligations.IssueLatchesAndStarts : Prop :=
  (∀ (i : Instr) (s : State), isShort i = true → s.phase = .idle →
    ∃ t, exec i s = .next t ∧ t.cmd = encode i ∧ t.phase = .idle) ∧
  (∀ s : State, s.phase = .idle → s.inputLength ≤ s.srcSize → s.capacity ≤ s.dstSize →
    exec .encode s = .next { s with cmd := 6, phase := .check } ∧
    exec .decode s = .next { s with cmd := 7, phase := .check })

/-- 70_reset_and_hazards.md sections 2 and 3, the model's refusals of a host that breaks its duties at the command port: a command
presented while busy, `N` above `SRC_SIZE`, `CAP` above `DST_SIZE` (notes/assumptions/4.md, 8.md). -/
def Obligations.BrokenIssueIsRefused : Prop :=
  (∀ (i : Instr) (s : State), s.phase ≠ .idle → exec i s = .refused .commandWhileBusy) ∧
  (∀ (d : Driver) (s : State), s.phase = .idle → s.srcSize < s.inputLength →
    exec (driverCommandOf d) s = .refused .sourceTooLong) ∧
  (∀ (d : Driver) (s : State), s.phase = .idle → s.inputLength ≤ s.srcSize → s.dstSize < s.capacity →
    exec (driverCommandOf d) s = .refused .capacityTooLarge)

/-! ## The micro-steps -/

/-- R111: the CHECK step of both drivers. -/
def Obligations.CheckComparesCapacityWithNeed : Prop :=
  ∀ s : State, s.phase = .check → HostWaits s →
    (s.cmd = 6 → s.capacity < enclen s.inputLength →
      step s = .next { s with status := .invalidLength, rlen := 0, inv := false, r := 0, phase := .idle }) ∧
    (s.cmd = 7 → s.capacity < declen s.inputLength →
      step s = .next { s with status := .invalidLength, rlen := 0, inv := false, r := 0, phase := .idle }) ∧
    (s.cmd = 6 → enclen s.inputLength ≤ s.capacity →
      step s = .next { s with idx := 0, err := false, phase := .full }) ∧
    (s.cmd = 7 → declen s.inputLength ≤ s.capacity →
      step s = .next { s with idx := 0, err := false, phase := .full })

/-- R112: a FULL step of ENCODE reads three bytes at `3i`, writes their four symbols at `4i`, and adds 1 to `IDX`, which does not
wrap. -/
def Obligations.EncodeFullStepEncodesOneChunk : Prop :=
  ∀ (s : State) (b0 b1 b2 : Byte), s.phase = .full → s.cmd = 6 → HostWaits s →
    s.idx.toNat < s.inputLength / 3 → 3 * s.idx.toNat + 3 ≤ s.srcSize → 4 * s.idx.toNat + 4 ≤ s.dstSize →
    memRead s.src (3 * s.idx.toNat) = some b0 → memRead s.src (3 * s.idx.toNat + 1) = some b1 →
    memRead s.src (3 * s.idx.toNat + 2) = some b2 →
    step s = .next { s with
      dst := memWriteAll s.dst (4 * s.idx.toNat) (quadBytes (enc3 ⟨b0, b1, b2⟩)), idx := s.idx + 1 } ∧
    (s.idx + 1).toNat = s.idx.toNat + 1

/-- R113: a FULL step of DECODE reads four symbols at `4i`, writes their three bytes at `3i` whether or not the group is valid and
whatever `ERR` is, ORs the signal into `ERR`, and adds 1 to `IDX`. -/
def Obligations.DecodeFullStepDecodesOneGroup : Prop :=
  ∀ (s : State) (s0 s1 s2 s3 : Byte), s.phase = .full → s.cmd = 7 → HostWaits s →
    s.idx.toNat < s.inputLength / 4 → 4 * s.idx.toNat + 4 ≤ s.srcSize → 3 * s.idx.toNat + 3 ≤ s.dstSize →
    memRead s.src (4 * s.idx.toNat) = some s0 → memRead s.src (4 * s.idx.toNat + 1) = some s1 →
    memRead s.src (4 * s.idx.toNat + 2) = some s2 → memRead s.src (4 * s.idx.toNat + 3) = some s3 →
    step s = .next { s with
      dst := memWriteAll s.dst (3 * s.idx.toNat) (tripleBytes (dec4 ⟨s0, s1, s2, s3⟩).bytes),
      err := s.err || (dec4 ⟨s0, s1, s2, s3⟩).invalid, idx := s.idx + 1 } ∧
    (s.idx + 1).toNat = s.idx.toNat + 1

/-- R114: at the end of the full chunks `PHASE` becomes REM and nothing else changes. -/
def Obligations.EndOfFullChunksOnlyMovesOn : Prop :=
  ∀ s : State, s.phase = .full → HostWaits s →
    (s.cmd = 6 → s.idx.toNat = s.inputLength / 3 → step s = .next { s with phase := .rem }) ∧
    (s.cmd = 7 → s.idx.toNat = s.inputLength / 4 → step s = .next { s with phase := .rem })

/-- R115: the REM step of ENCODE, for a remainder of 0, 1 and 2 bytes. -/
def Obligations.EncodeRemainderPadsWithZeros : Prop :=
  ∀ s : State, s.phase = .rem → s.cmd = 6 → HostWaits s →
    (s.inputLength % 3 = 0 → step s = .next { s with phase := .fin }) ∧
    (∀ b0 : Byte, s.inputLength % 3 = 1 → s.inputLength ≤ s.srcSize → enclen s.inputLength ≤ s.dstSize →
      memRead s.src (3 * (s.inputLength / 3)) = some b0 →
      step s = .next { s with
        phase := .fin,
        dst := memWriteAll s.dst (4 * (s.inputLength / 3)) [(enc3 ⟨b0, 0, 0⟩).s0, (enc3 ⟨b0, 0, 0⟩).s1] }) ∧
    (∀ b0 b1 : Byte, s.inputLength % 3 = 2 → s.inputLength ≤ s.srcSize → enclen s.inputLength ≤ s.dstSize →
      memRead s.src (3 * (s.inputLength / 3)) = some b0 → memRead s.src (3 * (s.inputLength / 3) + 1) = some b1 →
      step s = .next { s with
        phase := .fin,
        dst := memWriteAll s.dst (4 * (s.inputLength / 3))
          [(enc3 ⟨b0, b1, 0⟩).s0, (enc3 ⟨b0, b1, 0⟩).s1, (enc3 ⟨b0, b1, 0⟩).s2] })

/-- R116: the REM step of DECODE, for a remainder of 0, 1, 2 and 3 symbols; a lone symbol is invalid whatever it is. -/
def Obligations.DecodeRemainderPadsWithFillers : Prop :=
  ∀ s : State, s.phase = .rem → s.cmd = 7 → HostWaits s → s.inputLength ≤ s.srcSize → declen s.inputLength ≤ s.dstSize →
    (s.inputLength % 4 = 0 → step s = .next { s with phase := .fin }) ∧
    (∀ s0 : Byte, s.inputLength % 4 = 1 → memRead s.src (4 * (s.inputLength / 4)) = some s0 →
      step s = .next { s with phase := .fin, err := true }) ∧
    (∀ s0 s1 : Byte, s.inputLength % 4 = 2 → memRead s.src (4 * (s.inputLength / 4)) = some s0 →
      memRead s.src (4 * (s.inputLength / 4) + 1) = some s1 →
      step s = .next { s with
        phase := .fin,
        err := s.err || (dec4 ⟨s0, s1, 0x41, 0x41⟩).invalid,
        dst := memWriteAll s.dst (3 * (s.inputLength / 4)) [(dec4 ⟨s0, s1, 0x41, 0x41⟩).bytes.b0] }) ∧
    (∀ s0 s1 s2 : Byte, s.inputLength % 4 = 3 → memRead s.src (4 * (s.inputLength / 4)) = some s0 →
      memRead s.src (4 * (s.inputLength / 4) + 1) = some s1 → memRead s.src (4 * (s.inputLength / 4) + 2) = some s2 →
      step s = .next { s with
        phase := .fin,
        err := s.err || (dec4 ⟨s0, s1, s2, 0x41⟩).invalid,
        dst := memWriteAll s.dst (3 * (s.inputLength / 4))
          [(dec4 ⟨s0, s1, s2, 0x41⟩).bytes.b0, (dec4 ⟨s0, s1, s2, 0x41⟩).bytes.b1] })

/-- R117 and R118: the FIN step of each driver. -/
def Obligations.FinishChoosesTheStatus : Prop :=
  ∀ s : State, s.phase = .fin → HostWaits s →
    (s.cmd = 6 → step s = .next { s with
      status := .ok, rlen := BitVec.ofNat 33 (enclen s.inputLength), inv := false, r := 0, phase := .idle }) ∧
    (s.cmd = 7 → s.err = true → step s = .next { s with
      status := .invalidEncoding, rlen := 0, inv := true, r := 0, phase := .idle }) ∧
    (s.cmd = 7 → s.err = false → step s = .next { s with
      status := .ok, rlen := BitVec.ofNat 33 (declen s.inputLength), inv := false, r := 0, phase := .idle })

/-- 20_memory.md sections 1 and 5, the frame of a micro-step of ENCODE and DECODE: it leaves the operand registers, `CMD`, every byte
of `SRC` and the host's side alone; it changes the result registers only when it ends the command; it changes no byte of `DST`
outside the bytes it stores, whose place is the expression `storedAt` of the driver's phase, `IDX` and `N`. -/
def Obligations.MicroStepChangesOnlyItsChunk : Prop :=
  ∀ (d : Driver) (s t : State), s.phase ≠ .idle → driverOf s.cmd = some d → HostWaits s → step s = .next t →
    t.a = s.a ∧ t.n = s.n ∧ t.cap = s.cap ∧ t.cmd = s.cmd ∧
    t.aWritten = s.aWritten ∧ t.nWritten = s.nWritten ∧ t.capWritten = s.capWritten ∧
    (∀ j, memRead t.src j = memRead s.src j) ∧
    t.srcSize = s.srcSize ∧ t.dstSize = s.dstSize ∧ t.script = s.script ∧ t.seen = s.seen ∧ t.freeTick = s.freeTick ∧
    (t.phase ≠ .idle → t.r = s.r ∧ t.rlen = s.rlen ∧ t.inv = s.inv ∧ t.status = s.status) ∧
    (∀ j, j < (storedAt d s).1 ∨ (storedAt d s).1 + (storedAt d s).2 ≤ j → memRead t.dst j = memRead s.dst j)

/-- 10_state.md section 4: while a DECODE runs, an accumulator that is 1 stays 1 until the command completes. -/
def Obligations.AccumulatorIsNeverCleared : Prop :=
  ∀ s t : State, s.cmd = 7 → (s.phase = .full ∨ s.phase = .rem ∨ s.phase = .fin) → HostWaits s → step s = .next t →
    s.err = true → t.err = true

/-- R105 (which the spec marks as derived): the block does the same with every one of the 64 possible fillers: the state that the
remainder step of DECODE leaves, `DST` and `ERR` with it, does not depend on the filler's value. -/
def Obligations.FillerIsUnobservable : Prop :=
  ∀ (filler : Byte) (s : State), inAlphabet filler = true → decodeRemainderWith filler s = decodeRemainder s

/-- 20_memory.md section 1: a driver never reads `SRC` at index `N` or above: writing such a byte changes nothing else in what a
micro-step does. -/
def Obligations.SourceBeyondInputIsNeverRead : Prop :=
  ∀ (s : State) (i : Nat) (b : Byte), s.phase ≠ .idle → HostWaits s → s.inputLength ≤ i →
    (∀ t, step s = .next t → step { s with src := memWrite s.src i b } = .next { t with src := memWrite t.src i b }) ∧
    (∀ e, step s = .refused e → step { s with src := memWrite s.src i b } = .refused e)

/-- 20_memory.md section 1: no micro-step writes `DST` at or above the required output length, whatever `CAP` is. -/
def Obligations.DestinationBeyondNeedIsNeverWritten : Prop :=
  ∀ (d : Driver) (s t : State), Inv s → s.phase ≠ .idle → driverOf s.cmd = some d → HostWaits s → step s = .next t →
    ∀ j, need d s.inputLength ≤ j → memRead t.dst j = memRead s.dst j

/-- 70_reset_and_hazards.md section 1: a chunk or group, full or the remainder, with a byte of `SRC` that nothing has written is
refused, whichever of the bytes it reads that is (the model's refusal, notes/assumptions/2.md and 9.md). -/
def Obligations.UnwrittenSourceIsRefused : Prop :=
  ∀ (d : Driver) (s : State) (j : Nat), Inv s → s.phase ≠ .idle → driverOf s.cmd = some d → HostWaits s →
    j < (chunkReads d s).2 → memRead s.src ((chunkReads d s).1 + j) = none →
    step s = .refused .unwrittenSource

/-! ## Whole runs of a driver -/

/-- R93: an ENCODE with room for its output answers, after its issue, with a run of `N div 3 + 4` micro-steps that ends
with `complete(OK, need, 0, 0)`; `DST[0 .. need-1]` holds ENC3 of the chunks and the leading symbols of the padded remainder; every
symbol is an alphabet byte, hence below 0x80. -/
def Obligations.EncodeRunsToCompletion : Prop :=
  ∀ (s : State) (input : List Byte), Ready s input → enclen s.inputLength ≤ s.capacity →
    (∃ issued, exec .encode s = .next issued ∧
      runSteps (s.inputLength / 3 + 4) issued = .next { s with
        cmd := 6, idx := BitVec.ofNat 32 (s.inputLength / 3), err := false,
        status := .ok, rlen := BitVec.ofNat 33 (enclen s.inputLength), inv := false, r := 0,
        dst := memWriteAll s.dst 0 (encodeText input) }) ∧
    (encodeText input).length = enclen s.inputLength ∧
    (∀ b ∈ encodeText input, inAlphabet b = true ∧ b.toNat < 0x80)

/-- 45_encode_driver.md, ENCODE as one function (an equivalence the spec marks as derived): the output is ENC6 of the 6-bit groups of
the input read as one bit string, 0 bits appended. -/
def Obligations.EncodeIsTheBitString : Prop :=
  ∀ input : List Byte, encodeText input = encodeBitString input

/-- 46_decode_driver.md and 47_chunk_iterator.md section 3: a DECODE with room for its output answers, after its issue, with a run of
`N div 4 + 4` micro-steps; it writes `DST[0 .. need-1]` whatever the symbols are, and its verdict is that of
the text. The bytes written before an InvalidEncoding are those of the spec's decision D6 (notes/assumptions/12.md). -/
def Obligations.DecodeRunsToCompletion : Prop :=
  ∀ (s : State) (text : List Byte), Ready s text → declen s.inputLength ≤ s.capacity →
    (∃ issued, exec .decode s = .next issued ∧
      runSteps (s.inputLength / 4 + 4) issued = .next { s with
        cmd := 7, idx := BitVec.ofNat 32 (s.inputLength / 4), err := !(acceptable text),
        status := if acceptable text then .ok else .invalidEncoding,
        rlen := if acceptable text then BitVec.ofNat 33 (declen s.inputLength) else 0,
        inv := !(acceptable text), r := 0,
        dst := memWriteAll s.dst 0 (decodeBytes text) }) ∧
    (decodeBytes text).length = declen s.inputLength

/-- R123: ENCODE and DECODE, and no other command, end in InvalidLength, and exactly when `CAP` is below the required length; it is
detected in the first micro-step; `DST`, `SRC` and the operand registers are unchanged, and what `SRC` holds has no part in it. -/
def Obligations.ShortCapacityEndsInInvalidLength : Prop :=
  (∀ (d : Driver) (s : State), s.phase = .idle → HostWaits s → s.inputLength ≤ s.srcSize → s.capacity ≤ s.dstSize →
    ∃ issued, exec (driverCommandOf d) s = .next issued ∧
      (s.capacity < need d s.inputLength → step issued = .next { s with
        cmd := encode (driverCommandOf d), status := .invalidLength, rlen := 0, inv := false, r := 0 }) ∧
      (need d s.inputLength ≤ s.capacity → ∃ t, step issued = .next t ∧ t.phase = .full)) ∧
  (∀ (d : Driver) (s t : State), driverOf s.cmd = some d → s.phase ≠ .idle → s.phase ≠ .check → HostWaits s →
    step s = .next t → t.phase = .idle → t.status ≠ .invalidLength) ∧
  (∀ (i : Instr) (s t : State), isShort i = true → exec i s = .next t → t.status = .ok)

/-- R106 (which the spec marks as derived): a DECODE completes with OK exactly when `CAP ≥ DECLEN(N)`, every byte of its input is
an alphabet byte, and `N mod 4 ≠ 1`; the unused low bits of the last symbol are dropped without a test. -/
def Obligations.DecodeAcceptsExactlyValidText : Prop :=
  (∀ (s : State) (text : List Byte), Ready s text →
    ∃ issued k t, exec .decode s = .next issued ∧ runSteps k issued = .next t ∧ t.phase = .idle ∧
      (t.status = .ok ↔
        declen s.inputLength ≤ s.capacity ∧ (∀ b ∈ text, inAlphabet b = true) ∧ s.inputLength % 4 ≠ 1)) ∧
  decodeBytes [0x41, 0x41] = [0x00] ∧ decodeBytes [0x41, 0x42] = [0x00] ∧ decodeBytes [0x41, 0x50] = [0x00] ∧
  decodeBytes [0x41, 0x51] = [0x01] ∧ acceptable [0x41, 0x42] = true ∧ acceptable [0x41, 0x50] = true

/-- R128 (which the spec marks as derived): a DECODE whose buffer is too small ends in InvalidLength whatever its input is; with
room enough, five symbols end in InvalidEncoding whatever they are. -/
def Obligations.InvalidLengthHasPriority : Prop :=
  (∀ (s : State) (text : List Byte), Ready s text → s.capacity < declen s.inputLength →
    ∃ issued t, exec .decode s = .next issued ∧ step issued = .next t ∧ t.phase = .idle ∧ t.status = .invalidLength) ∧
  declen 5 = 3 ∧
  (∀ (s : State) (text : List Byte), Ready s text → s.inputLength = 5 → 3 ≤ s.capacity →
    ∃ issued t, exec .decode s = .next issued ∧ runSteps 5 issued = .next t ∧ t.phase = .idle ∧
      t.status = .invalidEncoding)

/-- R120: a driver command takes 1 micro-step when `CAP` is below the required length, and `full + 4` otherwise: the block is busy
after every smaller number of micro-steps and idle after that many. -/
def Obligations.StepCountIsFullPlusFour : Prop :=
  ∀ (d : Driver) (s : State) (input : List Byte), Ready s input →
    ∃ issued, exec (driverCommandOf d) s = .next issued ∧ issued.phase ≠ .idle ∧
      (s.capacity < need d s.inputLength → ∃ t, runSteps 1 issued = .next t ∧ t.phase = .idle) ∧
      (need d s.inputLength ≤ s.capacity →
        (∀ k, k < fullChunks d s.inputLength + 4 → ∃ t, runSteps k issued = .next t ∧ t.phase ≠ .idle) ∧
        (∃ t, runSteps (fullChunks d s.inputLength + 4) issued = .next t ∧ t.phase = .idle))

/-- R107, the round trip (which the spec marks as derived): ENCODE any bytes with room for their symbols; put the symbols into
`SRC`, their number into `N`, and DECODE with room for the bytes: the result is OK, `RLEN` is the number of bytes, and `DST` holds
the bytes. -/
def Obligations.DecodeOfEncodeIsTheInput : Prop :=
  ∀ (s : State) (input : List Byte), Ready s input → enclen s.inputLength ≤ s.capacity →
    ∃ issued t, exec .encode s = .next issued ∧ runSteps (s.inputLength / 3 + 4) issued = .next t ∧ t.phase = .idle ∧
      t.status = .ok ∧
      ∀ u : State, u.phase = .idle → HostWaits u → u.inputLength = t.rlen.toNat →
        (∀ j, j < t.rlen.toNat → memRead u.src j = memRead t.dst j) →
        u.inputLength ≤ u.srcSize → u.capacity ≤ u.dstSize → input.length ≤ u.capacity →
        ∃ issued' v, exec .decode u = .next issued' ∧ runSteps (u.inputLength / 4 + 4) issued' = .next v ∧
          v.phase = .idle ∧ v.status = .ok ∧ v.rlen.toNat = input.length ∧
          ∀ j (h : j < input.length), memRead v.dst j = some input[j]

/-- 70_reset_and_hazards.md section 4: a command in progress completes, within `(2^LENW - 1) div 3 + 4` micro-steps, when the host waits
and has written the input. -/
def Obligations.EveryDriverTerminates : Prop :=
  ∀ s : State, Inv s → HostWaits s → BlockReady s →
    ∃ k t, k ≤ (2 ^ 32 - 1) / 3 + 4 ∧ runSteps k s = .next t ∧ t.phase = .idle

/-! ## The whole machine -/

/-- The invariant holds in the state right after reset. -/
def Obligations.InvariantHoldsAtReset : Prop := Inv State.reset

/-- Every step keeps the invariant, from every state that meets it: both memories stay canonical and inside their sizes, a busy block has
a driver in `CMD` with room for its output and an `IDX` in range, and an error leaves no output view. -/
def Obligations.EveryStepKeepsTheInvariant : Prop := ∀ s t : State, Inv s → step s = .next t → Inv t

/-- 93_implementation_defined.md U8: no state that meets the invariant is stuck. -/
def Obligations.NoReachableStateIsStuck : Prop := ∀ (s : State) (e : Fault), Inv s → step s ≠ .fault e

/-- 70_reset_and_hazards.md: where the host keeps its duties, among them that it has written what a command reads when it issues
the command (R142), the machine takes a step: it neither faults nor leaves the model, and the input of a driver in progress
stays written. -/
def Obligations.DutifulHostIsNeverRefused : Prop :=
  ∀ s : State, Inv s → BlockReady s → ProtocolKept s → ∃ t, step s = .next t ∧ BlockReady t

/-- 70_reset_and_hazards.md section 3, constant time: two states that differ in secrets only (`A`, the bytes of `SRC` and `DST`, what the
host is yet to write there, `ERR`, the result registers) take steps of one kind into states that differ in secrets only. -/
def Obligations.StepsAreAlikeForAllSecrets : Prop := ∀ s t : State, Alike s t → OutcomesAlike (step s) (step t)

/-- 70_reset_and_hazards.md section 3 and 47_chunk_iterator.md section 3, no early exit: runs from two states that differ in secrets only
pass through the same phases and the same values of `IDX`, write the same indexes, and stop, if they stop, at the same step for the same
reason. -/
def Obligations.RunsAreAlikeForAllSecrets : Prop :=
  ∀ (k : Nat) (s t : State), Alike s t → OutcomesAlike (runSteps k s) (runSteps k t)

/-- 60_exceptions.md section 5: when `PHASE = IDLE` the block does nothing until the next command, and no state is lost while
idle. That an idle block with nothing presented answers a next state, its own, is the model's reading (notes/assumptions/18.md);
the host's moves `wait` and `tick`, which leave the script, are the model's (notes/assumptions/4.md). -/
def Obligations.IdleBlockDoesNothing : Prop :=
  ∀ s : State, s.phase = .idle →
    (s.script = [] → step s = .next s) ∧
    (∀ rest, s.script = .wait :: rest → step s = .next { s with script := rest }) ∧
    (∀ rest, s.script = .tick :: rest → step s = .next { s with script := rest })

/-! ## The host -/

/-- 10_state.md section 3: while the block is idle the host writes each operand register, which then reads as what it wrote and
counts as written since reset, and each byte of either memory; the byte it wrote is there, and every other byte is as before. A
write at or above the memory's size is refused (the model's refusal, notes/assumptions/19.md). -/
def Obligations.HostWritesLand : Prop :=
  ∀ (s : State) (rest : List HostMove), s.phase = .idle →
    (∀ v, s.script = .setA v :: rest →
      ∃ t, step s = .next t ∧ t = { s with a := v, aWritten := true, script := rest } ∧ t.operandA = v) ∧
    (∀ v, s.script = .setN v :: rest →
      ∃ t, step s = .next t ∧ t = { s with n := v, nWritten := true, script := rest } ∧ t.inputLength = v.toNat) ∧
    (∀ v, s.script = .setCap v :: rest →
      ∃ t, step s = .next t ∧ t = { s with cap := v, capWritten := true, script := rest } ∧ t.capacity = v.toNat) ∧
    (∀ i b, s.script = .writeSrc i b :: rest → i < s.srcSize →
      ∃ m, step s = .next { s with src := m, script := rest } ∧ memRead m i = some b ∧
        ∀ j, j ≠ i → memRead m j = memRead s.src j) ∧
    (∀ i b, s.script = .writeDst i b :: rest → i < s.dstSize →
      ∃ m, step s = .next { s with dst := m, script := rest } ∧ memRead m i = some b ∧
        ∀ j, j ≠ i → memRead m j = memRead s.dst j) ∧
    (∀ i b, s.script = .writeSrc i b :: rest → s.srcSize ≤ i → step s = .refused .noSuchLocation) ∧
    (∀ i b, s.script = .writeDst i b :: rest → s.dstSize ≤ i → step s = .refused .noSuchLocation)

/-- 10_state.md section 3: while the block is idle the host reads every register it may read and any byte that has been written;
a read changes nothing but what the host has seen. `A`, `N` and `CAP` read as what the host wrote, and as a free value before it
has written them (the model's choice, notes/assumptions/1.md). A read of a byte that nothing has written, or at or above the
memory's size, is refused (the model's refusals, notes/assumptions/2.md and 19.md). What the host has seen is the model's
(notes/assumptions/4.md). -/
def Obligations.HostReadsChangeNothing : Prop :=
  ∀ (s : State) (what : ReadTarget) (rest : List HostMove), s.phase = .idle → s.script = .read what :: rest →
    (∀ v, readValue s what = .ok v →
      step s = .next { s with seen := ⟨what, v⟩ :: s.seen, script := rest }) ∧
    (what = .a → readValue s what = .ok s.operandA.toNat ∧ (s.aWritten = true → readValue s what = .ok s.a.toNat)) ∧
    (what = .n → readValue s what = .ok s.inputLength ∧ (s.nWritten = true → readValue s what = .ok s.n.toNat)) ∧
    (what = .cap → readValue s what = .ok s.capacity ∧ (s.capWritten = true → readValue s what = .ok s.cap.toNat)) ∧
    (what = .r → readValue s what = .ok s.r.toNat) ∧
    (what = .rlen → readValue s what = .ok s.rlen.toNat) ∧
    (what = .inv → readValue s what = .ok (if s.inv then 1 else 0)) ∧
    (what = .status → s.status = .ok → readValue s what = .ok 0) ∧
    (what = .status → s.status = .invalidLength → readValue s what = .ok 1) ∧
    (what = .status → s.status = .invalidEncoding → readValue s what = .ok 2) ∧
    (what = .busy → readValue s what = .ok 0) ∧
    (∀ i b, what = .dst i → i < s.dstSize → memRead s.dst i = some b → readValue s what = .ok b.toNat) ∧
    (∀ i b, what = .src i → i < s.srcSize → memRead s.src i = some b → readValue s what = .ok b.toNat) ∧
    (∀ i, what = .dst i → i < s.dstSize → memRead s.dst i = none → step s = .refused .unwrittenDestination) ∧
    (∀ i, what = .src i → i < s.srcSize → memRead s.src i = none → step s = .refused .unwrittenSource) ∧
    (∀ i, what = .dst i → s.dstSize ≤ i → step s = .refused .noSuchLocation) ∧
    (∀ i, what = .src i → s.srcSize ≤ i → step s = .refused .noSuchLocation)

/-- 70_reset_and_hazards.md section 3: while a driver runs, a host that writes an operand, touches `DST`, reads a result or
issues a command leaves the model (the model's refusals, notes/assumptions/4.md). That it may not read back `A`, `N`, `CAP` or
`SRC` either, and that it may still read that the block is busy, are the model's reading of R19 and R25
(notes/assumptions/20.md). -/
def Obligations.BusyBlockRefusesTheHost : Prop :=
  ∀ (s : State) (m : HostMove) (rest : List HostMove), s.phase ≠ .idle → s.script = m :: rest →
    (∀ v, m = .setA v ∨ m = .setN v ∨ m = .setCap v → step s = .refused .operandWriteWhileBusy) ∧
    (∀ i b, m = .writeSrc i b → step s = .refused .operandWriteWhileBusy) ∧
    (∀ i b, m = .writeDst i b → step s = .refused .accessWhileBusy) ∧
    (∀ what, m = .read what → what ≠ .busy → step s = .refused .accessWhileBusy) ∧
    (∀ op, m = .issue op → step s = .refused .commandWhileBusy) ∧
    (m = .read .busy → step s = .next { s with seen := ⟨.busy, 1⟩ :: s.seen, script := rest })

/-- 30_encoding.md section 4: what each line of the host notation does from an idle block. A SET line writes its register. The
lines `LOAD SRC, i, bytes` and `FILL DST, i, k, byte` write the bytes at ascending indexes from `i`. A mnemonic line presents
its command, and the wait that follows stays at the head of the script, the block taking its micro-steps, until `PHASE = IDLE`;
then the next line comes. That one move is one step, so that LOAD and FILL take one step a byte, and that the lines stand in a
script, are the model's choices (notes/assumptions/4.md). -/
def Obligations.HostLinesAreTheirActions : Prop :=
  (∀ (s : State) (v : Word) (rest : List HostMove), s.phase = .idle → s.script = lineMoves (.setA v) ++ rest →
    step s = .next { s with a := v, aWritten := true, script := rest }) ∧
  (∀ (s : State) (v : Length) (rest : List HostMove), s.phase = .idle → s.script = lineMoves (.setN v) ++ rest →
    step s = .next { s with n := v, nWritten := true, script := rest }) ∧
  (∀ (s : State) (v : Length) (rest : List HostMove), s.phase = .idle → s.script = lineMoves (.setCap v) ++ rest →
    step s = .next { s with cap := v, capWritten := true, script := rest }) ∧
  (∀ (s : State) (i : Nat) (bytes : List Byte) (rest : List HostMove), s.phase = .idle →
    s.script = lineMoves (.loadSrc i bytes) ++ rest → i + bytes.length ≤ s.srcSize →
    runSteps bytes.length s = .next { s with src := memWriteAll s.src i bytes, script := rest }) ∧
  (∀ (s : State) (i k : Nat) (b : Byte) (rest : List HostMove), s.phase = .idle →
    s.script = lineMoves (.fillDst i k b) ++ rest → i + k ≤ s.dstSize →
    runSteps k s = .next { s with dst := memWriteAll s.dst i (List.replicate k b), script := rest }) ∧
  (∀ (s : State) (c : Instr) (rest : List HostMove), s.phase = .idle → s.script = lineMoves (.command c) ++ rest →
    step s = exec c { s with script := .wait :: rest } ∧
    ∀ t, step s = .next t → t.script = .wait :: rest) ∧
  (∀ (s : State) (rest : List HostMove), s.script = .wait :: rest →
    (s.phase ≠ .idle → step s = microStep s ∧ ∀ t, step s = .next t → t.script = .wait :: rest) ∧
    (s.phase = .idle → step s = .next { s with script := rest }))
end

