-- ==== Sys2Proof/Laws/Memory.lean ====
section
/-! SUPPORT. The laws of the byte memories: a read after a write, the bytes a run of writes leaves alone, the canonical form,
and which addresses are listed. -/

namespace Sys2Proof.Machine

section
variable (m : Memory) (i j : Nat) (b : Byte) (bs cs : List Byte)

theorem memRead_memWrite : memRead (memWrite m i b) j = if i = j then some b else memRead m j := by
  induction m with
  | nil => simp [memWrite, memRead]
  | cons c rest ih =>
    obtain ⟨k, v⟩ := c
    by_cases hlt : i < k
    · simp [memWrite, memRead, hlt]
    · by_cases heq : i = k
      · subst heq
        simp only [memWrite, memRead, lt_irrefl, if_false, if_true]
        split <;> rfl
      · simp only [memWrite, hlt, heq, if_false, memRead, ih]
        split
        · rename_i hk
          rw [if_neg (by omega)]
        · rfl

@[simp] theorem memRead_memWrite_same : memRead (memWrite m i b) i = some b := by
  simp [memRead_memWrite]

theorem memRead_memWrite_other (h : i ≠ j) : memRead (memWrite m i b) j = memRead m j := by
  simp [memRead_memWrite, h]

@[simp] theorem memWriteAll_nil : memWriteAll m i [] = m := rfl

theorem memWriteAll_cons : memWriteAll m i (b :: bs) = memWriteAll (memWrite m i b) (i + 1) bs := rfl

/-- A byte outside the bytes written reads as before. -/
theorem memRead_memWriteAll_outside (h : j < i ∨ i + bs.length ≤ j) :
    memRead (memWriteAll m i bs) j = memRead m j := by
  induction bs generalizing m i with
  | nil => rfl
  | cons b bs ih =>
    simp only [List.length_cons] at h
    rw [memWriteAll_cons, ih _ _ (by omega), memRead_memWrite_other _ _ _ _ (by omega)]

/-- A byte among the bytes written reads as the byte written there. -/
theorem memRead_memWriteAll_inside (h : j < bs.length) :
    memRead (memWriteAll m i bs) (i + j) = some bs[j] := by
  induction bs generalizing m i j with
  | nil => simp at h
  | cons b bs ih =>
    rw [memWriteAll_cons]
    cases j with
    | zero => rw [memRead_memWriteAll_outside _ _ _ _ (by omega)]; simp
    | succ j =>
      have := ih (memWrite m i b) (i + 1) j (by simpa using h)
      simpa [Nat.add_assoc, Nat.add_comm 1] using this

/-- Writing one run of bytes and then the next is writing both. -/
theorem memWriteAll_append :
    memWriteAll m i (bs ++ cs) = memWriteAll (memWriteAll m i bs) (i + bs.length) cs := by
  induction bs generalizing m i with
  | nil => rfl
  | cons b bs ih =>
    rw [List.cons_append, memWriteAll_cons, memWriteAll_cons, ih, List.length_cons, Nat.add_assoc, Nat.add_comm 1]

theorem mem_memWrite (c : Host.Cell) (h : c ∈ memWrite m i b) : c = (i, b) ∨ c ∈ m := by
  induction m with
  | nil => simpa [memWrite] using h
  | cons d rest ih =>
    obtain ⟨k, v⟩ := d
    simp only [memWrite] at h
    split at h
    · simpa using h
    · split at h
      · rcases List.mem_cons.mp h with h | h
        · exact .inl h
        · exact .inr (List.mem_cons_of_mem _ h)
      · rcases List.mem_cons.mp h with h | h
        · exact .inr (h ▸ List.mem_cons_self)
        · exact (ih h).imp id (List.mem_cons_of_mem _)

/-- A write keeps the canonical form. -/
theorem memWrite_wf (h : Memory.wf m) : Memory.wf (memWrite m i b) := by
  induction m with
  | nil => simp [memWrite]
  | cons d rest ih =>
    obtain ⟨k, v⟩ := d
    rw [Memory.wf, List.pairwise_cons] at h
    simp only [memWrite]
    split
    · rename_i hik
      refine List.pairwise_cons.mpr ⟨?_, List.pairwise_cons.mpr h⟩
      rintro c hc
      rcases List.mem_cons.mp hc with rfl | hc
      · exact hik
      · exact lt_trans hik (h.1 c hc)
    · split
      · rename_i hik
        subst hik
        exact List.pairwise_cons.mpr h
      · refine List.pairwise_cons.mpr ⟨?_, ih h.2⟩
        intro c hc
        rcases mem_memWrite _ _ _ _ hc with rfl | hc
        · show k < i
          omega
        · exact h.1 c hc

/-- A run of writes keeps the canonical form. -/
theorem memWriteAll_wf (h : Memory.wf m) : Memory.wf (memWriteAll m i bs) := by
  induction bs generalizing m i with
  | nil => exact h
  | cons b bs ih => exact ih _ _ (memWrite_wf _ _ _ h)

/-- A run of writes below a bound keeps every listed address below it. -/
theorem memWriteAll_inside {size : Nat} (h : ∀ c ∈ m, c.1 < size) (hb : i + bs.length ≤ size) :
    ∀ c ∈ memWriteAll m i bs, c.1 < size := by
  induction bs generalizing m i with
  | nil => exact h
  | cons b bs ih =>
    simp only [List.length_cons] at hb
    refine ih _ _ ?_ (by omega)
    intro c hc
    rcases mem_memWrite _ _ _ _ hc with rfl | hc
    · show i < size
      omega
    · exact h c hc

/-- Equal canonical memories are equal lists: the form loses nothing. -/
theorem memory_ext (m' : Memory) (h : Memory.wf m) (h' : Memory.wf m') (heq : ∀ j, memRead m j = memRead m' j) : m = m' := by
  induction m generalizing m' with
  | nil =>
    cases m' with
    | nil => rfl
    | cons d _ => have := heq d.1; simp [memRead] at this
  | cons c rest ih =>
    obtain ⟨k, v⟩ := c
    cases m' with
    | nil => have := heq k; simp [memRead] at this
    | cons d rest' =>
      obtain ⟨k', v'⟩ := d
      have hmiss : ∀ (l : Memory) (a : Nat), (∀ c ∈ l, a < c.1) → memRead l a = none := by
        intro l a hl
        induction l with
        | nil => rfl
        | cons e l ihl =>
          have : e.1 ≠ a := by have := hl e List.mem_cons_self; omega
          simp only [memRead, this, if_false]
          exact ihl fun c hc => hl c (List.mem_cons_of_mem _ hc)
      rw [Memory.wf, List.pairwise_cons] at h h'
      have hk : k = k' := by
        by_contra hne
        rcases lt_or_gt_of_ne hne with hlt | hgt
        · have h1 := heq k
          rw [hmiss ((k', v') :: rest') k] at h1
          · simp [memRead] at h1
          · intro c hc
            rcases List.mem_cons.mp hc with rfl | hc
            · exact hlt
            · exact lt_trans hlt (h'.1 c hc)
        · have h1 := heq k'
          rw [hmiss ((k, v) :: rest) k'] at h1
          · simp [memRead] at h1
          · intro c hc
            rcases List.mem_cons.mp hc with rfl | hc
            · exact hgt
            · exact lt_trans hgt (h.1 c hc)
      subst hk
      have hv : v = v' := by simpa [memRead] using heq k
      subst hv
      congr 1
      refine ih _ h.2 h'.2 fun j => ?_
      by_cases hj : k = j
      · subst hj
        rw [hmiss rest k h.1, hmiss rest' k h'.1]
      · simpa [memRead, hj] using heq j

end

end Sys2Proof.Machine
end

