-- ==== Sys2Proof/Laws/State.lean ====
section
/-! SUPPORT. What each update of the state does to each field: one lemma per field, true by definition. -/

namespace Sys2Proof.Machine

section
variable (s : State) (st : Status) (k : LongLength) (v : Bool) (w : Word) (op : Code)

@[simp] theorem complete_a : (complete st k v w s).a = s.a := rfl
@[simp] theorem complete_n : (complete st k v w s).n = s.n := rfl
@[simp] theorem complete_cap : (complete st k v w s).cap = s.cap := rfl
@[simp] theorem complete_aWritten : (complete st k v w s).aWritten = s.aWritten := rfl
@[simp] theorem complete_nWritten : (complete st k v w s).nWritten = s.nWritten := rfl
@[simp] theorem complete_capWritten : (complete st k v w s).capWritten = s.capWritten := rfl
@[simp] theorem complete_operandA : (complete st k v w s).operandA = s.operandA := rfl
@[simp] theorem complete_inputLength : (complete st k v w s).inputLength = s.inputLength := rfl
@[simp] theorem complete_capacity : (complete st k v w s).capacity = s.capacity := rfl
@[simp] theorem complete_r : (complete st k v w s).r = w := rfl
@[simp] theorem complete_rlen : (complete st k v w s).rlen = k := rfl
@[simp] theorem complete_inv : (complete st k v w s).inv = v := rfl
@[simp] theorem complete_status : (complete st k v w s).status = st := rfl
@[simp] theorem complete_phase : (complete st k v w s).phase = .idle := rfl
@[simp] theorem complete_cmd : (complete st k v w s).cmd = s.cmd := rfl
@[simp] theorem complete_idx : (complete st k v w s).idx = s.idx := rfl
@[simp] theorem complete_err : (complete st k v w s).err = s.err := rfl
@[simp] theorem complete_src : (complete st k v w s).src = s.src := rfl
@[simp] theorem complete_dst : (complete st k v w s).dst = s.dst := rfl
@[simp] theorem complete_srcSize : (complete st k v w s).srcSize = s.srcSize := rfl
@[simp] theorem complete_dstSize : (complete st k v w s).dstSize = s.dstSize := rfl
@[simp] theorem complete_script : (complete st k v w s).script = s.script := rfl
@[simp] theorem complete_seen : (complete st k v w s).seen = s.seen := rfl
@[simp] theorem complete_freeTick : (complete st k v w s).freeTick = s.freeTick := rfl

@[simp] theorem latchCommand_a : (latchCommand op s).a = s.a := rfl
@[simp] theorem latchCommand_n : (latchCommand op s).n = s.n := rfl
@[simp] theorem latchCommand_cap : (latchCommand op s).cap = s.cap := rfl
@[simp] theorem latchCommand_aWritten : (latchCommand op s).aWritten = s.aWritten := rfl
@[simp] theorem latchCommand_nWritten : (latchCommand op s).nWritten = s.nWritten := rfl
@[simp] theorem latchCommand_capWritten : (latchCommand op s).capWritten = s.capWritten := rfl
@[simp] theorem latchCommand_operandA : (latchCommand op s).operandA = s.operandA := rfl
@[simp] theorem latchCommand_inputLength : (latchCommand op s).inputLength = s.inputLength := rfl
@[simp] theorem latchCommand_capacity : (latchCommand op s).capacity = s.capacity := rfl
@[simp] theorem latchCommand_r : (latchCommand op s).r = s.r := rfl
@[simp] theorem latchCommand_rlen : (latchCommand op s).rlen = s.rlen := rfl
@[simp] theorem latchCommand_inv : (latchCommand op s).inv = s.inv := rfl
@[simp] theorem latchCommand_status : (latchCommand op s).status = s.status := rfl
@[simp] theorem latchCommand_phase : (latchCommand op s).phase = s.phase := rfl
@[simp] theorem latchCommand_cmd : (latchCommand op s).cmd = op := rfl
@[simp] theorem latchCommand_idx : (latchCommand op s).idx = s.idx := rfl
@[simp] theorem latchCommand_err : (latchCommand op s).err = s.err := rfl
@[simp] theorem latchCommand_src : (latchCommand op s).src = s.src := rfl
@[simp] theorem latchCommand_dst : (latchCommand op s).dst = s.dst := rfl
@[simp] theorem latchCommand_srcSize : (latchCommand op s).srcSize = s.srcSize := rfl
@[simp] theorem latchCommand_dstSize : (latchCommand op s).dstSize = s.dstSize := rfl
@[simp] theorem latchCommand_script : (latchCommand op s).script = s.script := rfl
@[simp] theorem latchCommand_seen : (latchCommand op s).seen = s.seen := rfl
@[simp] theorem latchCommand_freeTick : (latchCommand op s).freeTick = s.freeTick := rfl

@[simp] theorem resetBlock_a : (resetBlock s).a = s.a := rfl
@[simp] theorem resetBlock_aWritten : (resetBlock s).aWritten = false := rfl
@[simp] theorem resetBlock_n : (resetBlock s).n = s.n := rfl
@[simp] theorem resetBlock_nWritten : (resetBlock s).nWritten = false := rfl
@[simp] theorem resetBlock_cap : (resetBlock s).cap = s.cap := rfl
@[simp] theorem resetBlock_capWritten : (resetBlock s).capWritten = false := rfl
@[simp] theorem resetBlock_operandA : (resetBlock s).operandA = Config.unspecifiedWord (s.freeTick + 3) := rfl
@[simp] theorem resetBlock_inputLength : (resetBlock s).inputLength = (Config.unspecifiedWord (s.freeTick + 4)).toNat := rfl
@[simp] theorem resetBlock_capacity : (resetBlock s).capacity = (Config.unspecifiedWord (s.freeTick + 5)).toNat := rfl
@[simp] theorem resetBlock_r : (resetBlock s).r = 0 := rfl
@[simp] theorem resetBlock_rlen : (resetBlock s).rlen = 0 := rfl
@[simp] theorem resetBlock_inv : (resetBlock s).inv = false := rfl
@[simp] theorem resetBlock_status : (resetBlock s).status = .ok := rfl
@[simp] theorem resetBlock_phase : (resetBlock s).phase = .idle := rfl
@[simp] theorem resetBlock_cmd : (resetBlock s).cmd = 0 := rfl
@[simp] theorem resetBlock_idx : (resetBlock s).idx = 0 := rfl
@[simp] theorem resetBlock_err : (resetBlock s).err = false := rfl
@[simp] theorem resetBlock_src : (resetBlock s).src = [] := rfl
@[simp] theorem resetBlock_dst : (resetBlock s).dst = s.dst := rfl
@[simp] theorem resetBlock_srcSize : (resetBlock s).srcSize = s.srcSize := rfl
@[simp] theorem resetBlock_dstSize : (resetBlock s).dstSize = s.dstSize := rfl
@[simp] theorem resetBlock_script : (resetBlock s).script = s.script := rfl
@[simp] theorem resetBlock_seen : (resetBlock s).seen = s.seen := rfl
@[simp] theorem resetBlock_freeTick : (resetBlock s).freeTick = s.freeTick + 3 := rfl

@[simp] theorem readOperand_written (held : Word) (draw : Nat) : readOperand true held draw = held := rfl

@[simp] theorem readOperand_unwritten (held : Word) (draw : Nat) : readOperand false held draw = Config.unspecifiedWord draw := rfl

theorem operandA_written (h : s.aWritten = true) : s.operandA = s.a := by
  rw [State.operandA, h, readOperand_written]

theorem inputLength_written (h : s.nWritten = true) : s.inputLength = s.n.toNat := by
  rw [State.inputLength, h, readOperand_written]

theorem capacity_written (h : s.capWritten = true) : s.capacity = s.cap.toNat := by
  rw [State.capacity, h, readOperand_written]

theorem inputLength_lt : s.inputLength < 2 ^ 32 := BitVec.isLt _

theorem capacity_lt : s.capacity < 2 ^ 32 := BitVec.isLt _

end

/-! What an operand reads as depends on its register, on whether it has been written, and on the counter of the resets. -/

section
variable (s t : State)

theorem operandA_congr (ha : t.a = s.a) (hw : t.aWritten = s.aWritten) (hf : t.freeTick = s.freeTick) :
    t.operandA = s.operandA := by
  rw [State.operandA, State.operandA, ha, hw, hf]

theorem inputLength_congr (hn : t.n = s.n) (hw : t.nWritten = s.nWritten) (hf : t.freeTick = s.freeTick) :
    t.inputLength = s.inputLength := by
  rw [State.inputLength, State.inputLength, hn, hw, hf]

theorem capacity_congr (hc : t.cap = s.cap) (hw : t.capWritten = s.capWritten) (hf : t.freeTick = s.freeTick) :
    t.capacity = s.capacity := by
  rw [State.capacity, State.capacity, hc, hw, hf]

end

end Sys2Proof.Machine
end

