-- ==== Sys2Proof/Laws/Ops.lean ====
section
/-! SUPPORT. For each shared operation, once, everything it can do: what it answers, and when. -/

namespace Sys2Proof.Machine

section
variable (s t : State) (i : Nat) (b : Byte)

/-- A sequence of accesses succeeds exactly when its first access and the rest do. -/
theorem bind_eq_ok {α β : Type} (x : Except Refusal α) (f : α → Except Refusal β) (c : β) :
    (x >>= f) = .ok c ↔ ∃ a, x = .ok a ∧ f a = .ok c := by
  cases x with
  | ok a => exact ⟨fun h => ⟨a, rfl, h⟩, by rintro ⟨_, h, h'⟩; cases h; exact h'⟩
  | error e => exact ⟨fun h => (nomatch h), by rintro ⟨_, h, _⟩; cases h⟩

@[simp] theorem ok_bind {α β : Type} (a : α) (f : α → Except Refusal β) : (Except.ok a >>= f) = f a := rfl

@[simp] theorem error_bind {α β : Type} (e : Refusal) (f : α → Except Refusal β) :
    ((Except.error e : Except Refusal α) >>= f) = .error e := rfl

@[simp] theorem pure_eq_ok {α : Type} (a : α) : (pure a : Except Refusal α) = .ok a := rfl

theorem readSrc_eq_ok : readSrc s i = .ok b ↔ i < s.srcSize ∧ memRead s.src i = some b := by
  unfold readSrc
  split
  · split <;> simp_all
  · simp_all

theorem readSrc_of (hi : i < s.srcSize) (hb : memRead s.src i = some b) : readSrc s i = .ok b :=
  (readSrc_eq_ok s i b).mpr ⟨hi, hb⟩

/-- Inside the memory, the only way a read can fail is that nothing has been written there. -/
theorem readSrc_inside (hi : i < s.srcSize) :
    readSrc s i = (match memRead s.src i with | some b => .ok b | none => .error .unwrittenSource) := by
  unfold readSrc
  exact if_pos hi

/-- A read inside `SRC` finds the byte written there, or is refused because nothing has been written there. -/
theorem readSrc_cases (hi : i < s.srcSize) :
    (∃ b, readSrc s i = .ok b ∧ memRead s.src i = some b) ∨
      (readSrc s i = .error .unwrittenSource ∧ memRead s.src i = none) := by
  cases h : memRead s.src i with
  | none => exact .inr ⟨by simp [readSrc, hi, h], rfl⟩
  | some b => exact .inl ⟨b, by simp [readSrc, hi, h], rfl⟩

theorem readDst_eq_ok : readDst s i = .ok b ↔ i < s.dstSize ∧ memRead s.dst i = some b := by
  unfold readDst
  split
  · split <;> simp_all
  · simp_all

@[simp] theorem readSrcOr_true (p : Byte) : readSrcOr true s i p = readSrc s i := rfl

@[simp] theorem readSrcOr_false (p : Byte) : readSrcOr false s i p = .ok p := rfl

theorem writeDst_eq_ok (base : Nat) (bs : List Byte) :
    writeDst s base bs = .ok t ↔ base + bs.length ≤ s.dstSize ∧ t = { s with dst := memWriteAll s.dst base bs } := by
  unfold writeDst
  split <;> simp_all [eq_comm]

theorem writeDst_of (base : Nat) (bs : List Byte) (h : base + bs.length ≤ s.dstSize) :
    writeDst s base bs = .ok { s with dst := memWriteAll s.dst base bs } := by
  simp [writeDst, h]

theorem writeSrc_eq_ok :
    writeSrc s i b = .ok t ↔ i < s.srcSize ∧ t = { s with src := memWrite s.src i b } := by
  unfold writeSrc
  split <;> simp_all [eq_comm]

@[simp] theorem toOut_ok : toOut (.ok s) = .next s := rfl

@[simp] theorem toOut_error (e : Refusal) : toOut (.error e) = .refused e := rfl

@[simp] theorem toOut_eq_next (x : Except Refusal State) : toOut x = .next t ↔ x = .ok t := by
  cases x <;> simp [toOut]

@[simp] theorem toOut_ne_fault (x : Except Refusal State) (e : Fault) : toOut x ≠ .fault e := by
  cases x <;> simp [toOut]

@[simp] theorem toOut_eq_refused (x : Except Refusal State) (e : Refusal) : toOut x = .refused e ↔ x = .error e := by
  cases x <;> simp [toOut]

theorem whenIdle_idle (e : Refusal) (o : Out) (h : s.phase = .idle) : whenIdle e s o = o := by
  simp [whenIdle, h]

theorem whenIdle_busy (e : Refusal) (o : Out) (h : s.phase ≠ .idle) : whenIdle e s o = .refused e := by
  simp [whenIdle, h]

theorem whenIdle_eq_next (e : Refusal) (o : Out) : whenIdle e s o = .next t ↔ s.phase = .idle ∧ o = .next t := by
  unfold whenIdle
  split <;> simp_all

theorem whenIdle_eq_fault (e : Refusal) (o : Out) (f : Fault) :
    whenIdle e s o = .fault f ↔ s.phase = .idle ∧ o = .fault f := by
  unfold whenIdle
  split <;> simp_all

theorem shortCommand_eq_next (op : Code) (f : State → State) :
    shortCommand op s f = .next t ↔ s.phase = .idle ∧ t = f (latchCommand op s) := by
  rw [shortCommand, whenIdle_eq_next, Host.Outcome.next.injEq, eq_comm (a := t)]

theorem shortCommand_of (op : Code) (f : State → State) (h : s.phase = .idle) :
    shortCommand op s f = .next (f (latchCommand op s)) := whenIdle_idle _ _ _ h

theorem driverCommand_eq_next (op : Code) :
    driverCommand op s = .next t ↔ s.phase = .idle ∧ s.inputLength ≤ s.srcSize ∧ s.capacity ≤ s.dstSize ∧
      t = { latchCommand op s with phase := .check } := by
  unfold driverCommand
  rw [whenIdle_eq_next]
  refine and_congr_right fun _ => ?_
  split
  · rename_i h
    exact ⟨fun h' => (nomatch h'), fun h' => absurd h'.1 (by omega)⟩
  · split
    · rename_i h
      exact ⟨fun h' => (nomatch h'), fun h' => absurd h'.2.1 (by omega)⟩
    · rename_i h1 h2
      constructor
      · intro h'
        cases h'
        exact ⟨by omega, by omega, rfl⟩
      · rintro ⟨_, _, rfl⟩
        rfl

theorem driverCommand_of (op : Code) (h : s.phase = .idle) (hn : s.inputLength ≤ s.srcSize) (hc : s.capacity ≤ s.dstSize) :
    driverCommand op s = .next { latchCommand op s with phase := .check } :=
  (driverCommand_eq_next s _ op).mpr ⟨h, hn, hc, rfl⟩

end

end Sys2Proof.Machine
end

