-- ==== Sys2Proof/Laws/Iterator.lean ====
section
/-! SUPPORT. What each micro-step can do, said once: when a chunk or a remainder is carried out, and what state it leaves. -/

namespace Sys2Proof.Machine

section
variable (s t : State)

theorem driverOf_eq_encode : driverOf s.cmd = some .encode ↔ s.cmd = 6 := by
  unfold driverOf
  split
  · simp_all
  · split <;> simp_all

theorem driverOf_eq_decode : driverOf s.cmd = some .decode ↔ s.cmd = 7 := by
  unfold driverOf
  split
  · rename_i h
    simp [h]
  · split <;> simp_all

@[simp] theorem driverOf_six : driverOf 6 = some .encode := rfl

@[simp] theorem driverOf_seven : driverOf 7 = some .decode := rfl

@[simp] theorem need_encode (n : Nat) : need .encode n = enclen n := rfl

@[simp] theorem need_decode (n : Nat) : need .decode n = declen n := rfl

@[simp] theorem fullChunks_encode (n : Nat) : fullChunks .encode n = n / 3 := rfl

@[simp] theorem fullChunks_decode (n : Nat) : fullChunks .decode n = n / 4 := rfl

@[simp] theorem remainder_encode (n : Nat) : remainder .encode n = n % 3 := rfl

@[simp] theorem remainder_decode (n : Nat) : remainder .decode n = n % 4 := rfl

theorem checkStep_short (d : Driver) (h : s.capacity < need d s.inputLength) :
    checkStep d s = { s with status := .invalidLength, rlen := 0, inv := false, r := 0, phase := .idle } := by
  rw [checkStep, if_pos h]
  rfl

theorem checkStep_room (d : Driver) (h : need d s.inputLength ≤ s.capacity) :
    checkStep d s = { s with idx := 0, err := false, phase := .full } := by
  rw [checkStep, if_neg (by omega)]

/-- One chunk of ENCODE is carried out exactly when its three bytes have been written and its four symbols fit. -/
theorem encodeChunk_eq_ok :
    encodeChunk s = .ok t ↔ ∃ b0 b1 b2,
      readSrc s (3 * s.idx.toNat) = .ok b0 ∧ readSrc s (3 * s.idx.toNat + 1) = .ok b1 ∧
      readSrc s (3 * s.idx.toNat + 2) = .ok b2 ∧ 4 * s.idx.toNat + 4 ≤ s.dstSize ∧
      t = { s with dst := memWriteAll s.dst (4 * s.idx.toNat) (quadBytes (enc3 ⟨b0, b1, b2⟩)), idx := s.idx + 1 } := by
  simp only [encodeChunk, bind_eq_ok, writeDst_eq_ok, pure_eq_ok, quadBytes, List.length_cons, List.length_nil]
  constructor
  · rintro ⟨b0, h0, b1, h1, b2, h2, u, ⟨hb, rfl⟩, h⟩
    cases h
    exact ⟨b0, b1, b2, h0, h1, h2, hb, rfl⟩
  · rintro ⟨b0, b1, b2, h0, h1, h2, hb, rfl⟩
    exact ⟨b0, h0, b1, h1, b2, h2, _, ⟨hb, rfl⟩, rfl⟩

/-- One group of DECODE is carried out exactly when its four symbols have been written and its three bytes fit, valid or not. -/
theorem decodeGroup_eq_ok :
    decodeGroup s = .ok t ↔ ∃ s0 s1 s2 s3,
      readSrc s (4 * s.idx.toNat) = .ok s0 ∧ readSrc s (4 * s.idx.toNat + 1) = .ok s1 ∧
      readSrc s (4 * s.idx.toNat + 2) = .ok s2 ∧ readSrc s (4 * s.idx.toNat + 3) = .ok s3 ∧
      3 * s.idx.toNat + 3 ≤ s.dstSize ∧
      t = { s with
        dst := memWriteAll s.dst (3 * s.idx.toNat) (tripleBytes (dec4 ⟨s0, s1, s2, s3⟩).bytes)
        err := s.err || (dec4 ⟨s0, s1, s2, s3⟩).invalid
        idx := s.idx + 1 } := by
  simp only [decodeGroup, bind_eq_ok, writeDst_eq_ok, pure_eq_ok, tripleBytes, accumulate, List.length_cons, List.length_nil]
  constructor
  · rintro ⟨s0, h0, s1, h1, s2, h2, s3, h3, u, ⟨hb, rfl⟩, h⟩
    cases h
    exact ⟨s0, s1, s2, s3, h0, h1, h2, h3, hb, rfl⟩
  · rintro ⟨s0, s1, s2, s3, h0, h1, h2, h3, hb, rfl⟩
    exact ⟨s0, h0, s1, h1, s2, h2, s3, h3, _, ⟨hb, rfl⟩, rfl⟩

/-- The remainder of ENCODE: nothing for `rem = 0`; otherwise its bytes have been written and its `rem + 1` symbols fit. -/
theorem encodeRemainder_eq_ok :
    encodeRemainder s = .ok t ↔
      (s.inputLength % 3 = 0 ∧ t = { s with phase := .fin }) ∨
      (s.inputLength % 3 ≠ 0 ∧ ∃ t0 t1,
        readSrc s (3 * (s.inputLength / 3)) = .ok t0 ∧
        readSrcOr (s.inputLength % 3 == 2) s (3 * (s.inputLength / 3) + 1) 0x00 = .ok t1 ∧
        4 * (s.inputLength / 3) + (s.inputLength % 3 + 1) ≤ s.dstSize ∧
        t = { s with
          dst := memWriteAll s.dst (4 * (s.inputLength / 3)) ((quadBytes (enc3 ⟨t0, t1, 0x00⟩)).take (s.inputLength % 3 + 1))
          phase := .fin }) := by
  have hlen : ∀ q : Quad, ((quadBytes q).take (s.inputLength % 3 + 1)).length = s.inputLength % 3 + 1 := by
    intro q
    simp only [List.length_take, quadBytes, List.length_cons, List.length_nil]
    omega
  simp only [encodeRemainder, fullChunks, remainder]
  by_cases h : s.inputLength % 3 = 0
  · simp only [h, if_true, pure_eq_ok, Except.ok.injEq, true_and, ne_eq, not_true_eq_false, false_and, or_false]
    exact eq_comm
  · simp only [h, if_false, bind_eq_ok, writeDst_eq_ok, pure_eq_ok, hlen, false_and, false_or, ne_eq, not_false_eq_true, true_and]
    constructor
    · rintro ⟨t0, h0, t1, h1, u, ⟨hb, rfl⟩, he⟩
      cases he
      exact ⟨t0, t1, h0, h1, hb, rfl⟩
    · rintro ⟨t0, t1, h0, h1, hb, rfl⟩
      exact ⟨t0, h0, t1, h1, _, ⟨hb, rfl⟩, rfl⟩

/-- The remainder of DECODE, with any padding symbol. -/
theorem decodeRemainderWith_eq_ok (filler : Byte) :
    decodeRemainderWith filler s = .ok t ↔ ∃ t0 t1 t2,
      readSrcOr (1 ≤ s.inputLength % 4) s (4 * (s.inputLength / 4)) filler = .ok t0 ∧
      readSrcOr (2 ≤ s.inputLength % 4) s (4 * (s.inputLength / 4) + 1) filler = .ok t1 ∧
      readSrcOr (s.inputLength % 4 == 3) s (4 * (s.inputLength / 4) + 2) filler = .ok t2 ∧
      3 * (s.inputLength / 4) + 3 * (s.inputLength % 4) / 4 ≤ s.dstSize ∧
      t = { s with
        dst := memWriteAll s.dst (3 * (s.inputLength / 4))
          ((tripleBytes (dec4 ⟨t0, t1, t2, filler⟩).bytes).take (3 * (s.inputLength % 4) / 4))
        err := s.err || s.inputLength % 4 == 1 || (dec4 ⟨t0, t1, t2, filler⟩).invalid
        phase := .fin } := by
  have hlen : ∀ q : Triple, ((tripleBytes q).take (3 * (s.inputLength % 4) / 4)).length = 3 * (s.inputLength % 4) / 4 := by
    intro q
    simp only [List.length_take, tripleBytes, List.length_cons, List.length_nil]
    omega
  simp only [decodeRemainderWith, fullChunks, remainder, remainderBytes, bind_eq_ok, writeDst_eq_ok, pure_eq_ok, hlen,
    accumulate, loneSymbol]
  constructor
  · rintro ⟨t0, h0, t1, h1, t2, h2, u, ⟨hb, rfl⟩, he⟩
    cases he
    exact ⟨t0, t1, t2, h0, h1, h2, hb, rfl⟩
  · rintro ⟨t0, t1, t2, h0, h1, h2, hb, rfl⟩
    exact ⟨t0, h0, t1, h1, t2, h2, _, ⟨hb, rfl⟩, rfl⟩

/-- What a micro-step of a busy block can do, by phase. -/
theorem microStep_eq_next (hbusy : s.phase ≠ .idle) :
    microStep s = .next t ↔ ∃ d, driverOf s.cmd = some d ∧
      ((s.phase = .check ∧ t = checkStep d s) ∨
       (s.phase = .full ∧ s.idx.toNat < fullChunks d s.inputLength ∧ d = .encode ∧ encodeChunk s = .ok t) ∨
       (s.phase = .full ∧ s.idx.toNat < fullChunks d s.inputLength ∧ d = .decode ∧ decodeGroup s = .ok t) ∨
       (s.phase = .full ∧ s.idx.toNat = fullChunks d s.inputLength ∧ t = { s with phase := .rem }) ∨
       (s.phase = .rem ∧ d = .encode ∧ encodeRemainder s = .ok t) ∨
       (s.phase = .rem ∧ d = .decode ∧ decodeRemainder s = .ok t) ∨
       (s.phase = .fin ∧ t = finStep d s)) := by
  unfold microStep
  cases hd : driverOf s.cmd with
  | none => cases hp : s.phase <;> simp_all
  | some d =>
    cases hp : s.phase with
    | idle => exact absurd hp hbusy
    | check => simp [eq_comm]
    | fin => simp [eq_comm]
    | rem => cases d <;> simp [remStep]
    | full =>
      simp only [fullStep]
      split
      · rename_i h
        have : ¬ s.idx.toNat = fullChunks d s.inputLength := by omega
        cases d <;> simp_all
      · split
        · rename_i h
          simp [h, eq_comm]
        · simp_all

/-- A micro-step leaves `SRC`, what `N` and `CAP` read as, the sizes and the host's side alone. -/
theorem microStep_keeps (hbusy : s.phase ≠ .idle) (h : microStep s = .next t) :
    t.src = s.src ∧ t.inputLength = s.inputLength ∧ t.capacity = s.capacity ∧ t.srcSize = s.srcSize ∧
      t.dstSize = s.dstSize ∧ t.script = s.script ∧ t.seen = s.seen := by
  obtain ⟨d, -, h⟩ := (microStep_eq_next s t hbusy).mp h
  rcases h with ⟨-, rfl⟩ | ⟨-, -, -, h⟩ | ⟨-, -, -, h⟩ | ⟨-, -, rfl⟩ | ⟨-, -, h⟩ | ⟨-, -, h⟩ | ⟨-, rfl⟩
  · unfold checkStep
    split <;> exact ⟨rfl, rfl, rfl, rfl, rfl, rfl, rfl⟩
  · obtain ⟨_, _, _, _, _, _, _, rfl⟩ := (encodeChunk_eq_ok _ _).mp h
    exact ⟨rfl, rfl, rfl, rfl, rfl, rfl, rfl⟩
  · obtain ⟨_, _, _, _, _, _, _, _, _, rfl⟩ := (decodeGroup_eq_ok _ _).mp h
    exact ⟨rfl, rfl, rfl, rfl, rfl, rfl, rfl⟩
  · exact ⟨rfl, rfl, rfl, rfl, rfl, rfl, rfl⟩
  · rcases (encodeRemainder_eq_ok _ _).mp h with ⟨_, rfl⟩ | ⟨_, _, _, _, _, _, rfl⟩ <;>
      exact ⟨rfl, rfl, rfl, rfl, rfl, rfl, rfl⟩
  · obtain ⟨_, _, _, _, _, _, _, rfl⟩ := (decodeRemainderWith_eq_ok _ _ _).mp h
    exact ⟨rfl, rfl, rfl, rfl, rfl, rfl, rfl⟩
  · cases d <;> exact ⟨rfl, rfl, rfl, rfl, rfl, rfl, rfl⟩

/-- A busy block is stuck only with no driver in `CMD`, or with `IDX` past the last chunk. -/
theorem microStep_eq_fault (e : Fault) (h : microStep s = .fault e) :
    s.phase ≠ .idle ∧
      (driverOf s.cmd = none ∨
        ∃ d, driverOf s.cmd = some d ∧ s.phase = .full ∧ fullChunks d s.inputLength < s.idx.toNat) := by
  unfold microStep at h
  cases hd : driverOf s.cmd with
  | none => cases hp : s.phase <;> simp_all
  | some d =>
    cases hp : s.phase with
    | idle => simp_all
    | check => simp_all
    | fin => simp_all
    | rem => cases d <;> simp_all [remStep]
    | full =>
      simp only [hp, hd, fullStep] at h
      split at h
      · simp at h
      · split at h
        · simp at h
        · exact ⟨by simp, .inr ⟨d, rfl, rfl, by omega⟩⟩

end

end Sys2Proof.Machine
end

