-- ==== Sys2Proof/Laws/PerInstr.lean ====
section
/-! SUPPORT. Statements about every command as syntax, one lemma per constructor. -/

namespace Sys2Proof.Laws.Encoding

/-- The command is well formed, and it has exactly one row in the opcode table, whose pattern is its code (R48). -/
def Statement (i : Instr) : Prop :=
  Instr.wellFormed i = true ∧ codeTable.filter (fun row => row.command == i) = [⟨encode i, 7, i⟩]

theorem enclen : Statement .enclen := ⟨rfl, rfl⟩

theorem declen : Statement .declen := ⟨rfl, rfl⟩

theorem enc6 : Statement .enc6 := ⟨rfl, rfl⟩

theorem dec6 : Statement .dec6 := ⟨rfl, rfl⟩

theorem enc3 : Statement .enc3 := ⟨rfl, rfl⟩

theorem dec4 : Statement .dec4 := ⟨rfl, rfl⟩

theorem encode : Statement .encode := ⟨rfl, rfl⟩

theorem decode : Statement .decode := ⟨rfl, rfl⟩

end Sys2Proof.Laws.Encoding
end

