-- ==== Sys2Proof/Laws/Secrets.lean ====
section
/-! SUPPORT. Which accesses succeed, and which addresses a write leaves listed, depend on the addresses listed before and not on
the bytes. -/

namespace Sys2Proof.Machine

section
variable (m m' : Memory) (i : Nat)

/-- A byte has been written at an address exactly when the address is listed. -/
theorem memRead_isSome : (memRead m i).isSome = decide (i ∈ addresses m) := by
  induction m with
  | nil => rfl
  | cons c rest ih =>
    obtain ⟨k, v⟩ := c
    simp only [addresses, List.map_cons, List.mem_cons] at ih ⊢
    by_cases hk : k = i
    · simp [memRead, hk]
    · simp [memRead, hk, ih, show ¬ i = k from fun h => hk h.symm]

/-- A write lists the same addresses whatever bytes stand in the memory and whatever byte is written. -/
theorem addresses_memWrite (b b' : Byte) (h : addresses m = addresses m') :
    addresses (memWrite m i b) = addresses (memWrite m' i b') := by
  induction m generalizing m' with
  | nil =>
    cases m' with
    | nil => rfl
    | cons _ _ => simp [addresses] at h
  | cons c rest ih =>
    cases m' with
    | nil => simp [addresses] at h
    | cons c' rest' =>
      obtain ⟨k, v⟩ := c
      obtain ⟨k', v'⟩ := c'
      simp only [addresses, List.map_cons, List.cons.injEq] at h
      obtain ⟨rfl, h⟩ := h
      simp only [memWrite]
      split
      · simp [addresses, h]
      · split
        · simp [addresses, h]
        · simp only [addresses, List.map_cons, List.cons.injEq, true_and]
          exact ih _ h

/-- A run of writes lists the same addresses whatever the bytes are. -/
theorem addresses_memWriteAll (bs bs' : List Byte) (h : addresses m = addresses m') (hlen : bs.length = bs'.length) :
    addresses (memWriteAll m i bs) = addresses (memWriteAll m' i bs') := by
  induction bs generalizing m m' i bs' with
  | nil =>
    cases bs' with
    | nil => exact h
    | cons _ _ => simp at hlen
  | cons b bs ih =>
    cases bs' with
    | nil => simp at hlen
    | cons b' bs' => exact ih _ _ _ _ (addresses_memWrite _ _ _ _ _ h) (by simpa using hlen)

/-- Whether a read of `SRC` succeeds, and how it fails, is the same in two states that are alike. -/
theorem readSrc_alike (s t : State) (h : Alike s t) :
    (∃ b c, readSrc s i = .ok b ∧ readSrc t i = .ok c) ∨ (∃ e, readSrc s i = .error e ∧ readSrc t i = .error e) := by
  have hsome : (memRead s.src i).isSome = (memRead t.src i).isSome := by
    rw [memRead_isSome, memRead_isSome, h.src]
  unfold readSrc
  rw [h.srcSize]
  split
  · cases hs : memRead s.src i with
    | none =>
      cases ht : memRead t.src i with
      | none => exact .inr ⟨_, rfl, rfl⟩
      | some c => simp [hs, ht] at hsome
    | some b =>
      cases ht : memRead t.src i with
      | none => simp [hs, ht] at hsome
      | some c => exact .inl ⟨b, c, rfl, rfl⟩
  · exact .inr ⟨_, rfl, rfl⟩

end

end Sys2Proof.Machine
end

