-- ==== Sys2Proof/Laws/Step.lean ====
section
/-! SUPPORT. What one step is, by whose move it is: the host's next move, or the block's micro-step. -/

namespace Sys2Proof.Machine

section
variable (s t : State)

/-- A step of a state with nothing left on the host's script is the block's micro-step. -/
theorem step_nil (h : s.script = []) : step s = microStep s := by
  simp only [step, h]

/-- A step of a state with a host move to make is that move. -/
theorem step_cons (m : HostMove) (rest : List HostMove) (h : s.script = m :: rest) : step s = hostMove m rest s := by
  simp only [step, h]

/-- While the host waits, a busy block takes its micro-step. -/
theorem step_waits (h : HostWaits s) (hbusy : s.phase ≠ .idle) : step s = microStep s := by
  cases hs : s.script with
  | nil => exact step_nil s hs
  | cons m rest =>
    have hm : m = .wait := by simpa [HostWaits, hs] using h
    rw [step_cons s m rest hs, hm]
    simp only [hostMove, if_neg hbusy]

/-- No micro-step touches what the host is waiting for. -/
theorem hostWaits_of_script (h : t.script = s.script) (hw : HostWaits s) : HostWaits t := by
  simpa only [HostWaits, h] using hw

@[simp] theorem runSteps_zero : runSteps 0 s = .next s := rfl

theorem runSteps_succ (k : Nat) (h : step s = .next t) : runSteps (k + 1) s = runSteps k t := by
  have h' : Sys2Proof.core.step s = .next t := h
  simp only [runSteps, Host.Core.run, h']
  rfl

theorem runSteps_stop_fault (k : Nat) (e : Fault) (h : step s = .fault e) : runSteps (k + 1) s = .fault e := by
  have h' : Sys2Proof.core.step s = .fault e := h
  simp only [runSteps, Host.Core.run, h']
  rfl

theorem runSteps_stop_refused (k : Nat) (e : Refusal) (h : step s = .refused e) : runSteps (k + 1) s = .refused e := by
  have h' : Sys2Proof.core.step s = .refused e := h
  simp only [runSteps, Host.Core.run, h']
  rfl

/-- A run of `j + k` steps is a run of `j` steps and then one of `k`. -/
theorem runSteps_add (j k : Nat) (h : runSteps j s = .next t) : runSteps (j + k) s = runSteps k t := by
  induction j generalizing s with
  | zero =>
    cases h
    rw [Nat.zero_add]
  | succ j ih =>
    cases hs : step s with
    | next u =>
      rw [runSteps_succ s u j hs] at h
      rw [Nat.add_right_comm, runSteps_succ s u _ hs]
      exact ih u h
    | fault e =>
      rw [runSteps_stop_fault s j e hs] at h
      cases h
    | refused e =>
      rw [runSteps_stop_refused s j e hs] at h
      cases h

/-- What every step keeps, every run keeps. -/
theorem runSteps_keeps (P : State → Prop) (hstep : ∀ u v, P u → step u = .next v → P v) (k : Nat) (h : P s)
    (hrun : runSteps k s = .next t) : P t := by
  induction k generalizing s with
  | zero =>
    cases hrun
    exact h
  | succ k ih =>
    cases hs : step s with
    | next u =>
      rw [runSteps_succ s u k hs] at hrun
      exact ih u (hstep s u h hs) hrun
    | fault e =>
      rw [runSteps_stop_fault s k e hs] at hrun
      cases hrun
    | refused e =>
      rw [runSteps_stop_refused s k e hs] at hrun
      cases hrun

/-- A read by the host leaves the state as it was but for what the host has seen. -/
theorem hostRead_eq_next (what : ReadTarget) :
    hostRead s what = .next t ↔ ∃ v, readValue s what = .ok v ∧ t = { s with seen := ⟨what, v⟩ :: s.seen } := by
  unfold hostRead
  split
  · rename_i v hv
    rw [hv]
    constructor
    · intro h
      cases h
      exact ⟨v, rfl, rfl⟩
    · rintro ⟨w, hw, rfl⟩
      cases hw
      rfl
  · rename_i e he
    rw [he]
    constructor
    · intro h
      cases h
    · rintro ⟨_, hw, _⟩
      cases hw

end

end Sys2Proof.Machine
end

