-- ==== Sys2Proof/Tests/Slice0.lean ====
section
/-! SUPPORT. The model's own tests: ill-formed terms, one code per command, one-step vectors of 95_test_vectors.md (TV), and for
each statement with hypotheses a state that meets them. -/

open Sys2Proof Sys2Proof.Machine

namespace Sys2Proof.Tests

/-! ## Ill-formed terms are refused -/

theorem test_wf_write_src_past_the_index_space : HostMove.wellFormed (.writeSrc (2 ^ 32) 0) = false := by decide

theorem test_wf_write_dst_past_the_index_space : HostMove.wellFormed (.writeDst (2 ^ 32) 0) = false := by decide

theorem test_wf_read_src_past_the_index_space : HostMove.wellFormed (.read (.src (2 ^ 32))) = false := by decide

theorem test_wf_read_dst_past_the_index_space : HostMove.wellFormed (.read (.dst (2 ^ 32))) = false := by decide

theorem test_wf_load_past_the_index_space : HostLine.wellFormed (.loadSrc (2 ^ 32 - 1) [0, 0]) = false := by decide

theorem test_wf_fill_past_the_index_space : HostLine.wellFormed (.fillDst (2 ^ 32 - 1) 2 0) = false := by decide

theorem test_wf_last_index : HostMove.wellFormed (.writeSrc (2 ^ 32 - 1) 0) = true ∧
    HostLine.wellFormed (.loadSrc (2 ^ 32 - 1) [0]) = true := by decide

/-! ## Codes, from the table of 30_encoding.md section 1 -/

theorem test_decode_enclen : decodeTableWord 8 0b00000000 = some .enclen := by decide

theorem test_decode_declen : decodeTableWord 8 0b00000001 = some .declen := by decide

theorem test_decode_enc6 : decodeTableWord 8 0b00000010 = some .enc6 := by decide

theorem test_decode_dec6 : decodeTableWord 8 0b00000011 = some .dec6 := by decide

theorem test_decode_enc3 : decodeTableWord 8 0b00000100 = some .enc3 := by decide

theorem test_decode_dec4 : decodeTableWord 8 0b00000101 = some .dec4 := by decide

theorem test_decode_encode : decodeTableWord 8 0b00000110 = some .encode := by decide

theorem test_decode_decode : decodeTableWord 8 0b00000111 = some .decode := by decide

theorem test_decode_refuses_two_bits : decodeWord 2 0b11 = .error .tooFewBits := by rfl

/-! ## One step -/

/-- The step answers a next state that passes the check. -/
def nextHas (o : Out) (check : State → Bool) : Bool :=
  match o with
  | .next s => check s
  | .fault _ => false
  | .refused _ => false

/-- An idle block with the operands given, whose host presents the code in the step that comes. -/
def presenting (op : Code) (a : Word) (n cap : Length) : State :=
  { State.reset with
    a := a, n := n, cap := cap, aWritten := true, nWritten := true, capWritten := true, script := [.issue op] }

/-- A busy block, its bytes of `SRC` from index 0, all of it within small memories. -/
def busy (cmd : Code) (phase : Phase) (n cap idx : Length) (source : List Byte) : State :=
  { State.reset with
    cmd := cmd, phase := phase, n := n, cap := cap, nWritten := true, capWritten := true, idx := idx
    src := memWriteAll [] 0 source, srcSize := 16, dstSize := 16 }

/-- An idle block with the bytes in `SRC`, their number in `N`, and the capacity. -/
def idleWith (cap : Length) (source : List Byte) : State :=
  { State.reset with
    n := BitVec.ofNat 32 source.length, cap := cap, nWritten := true, capWritten := true
    src := memWriteAll [] 0 source, srcSize := 16, dstSize := 16 }

/-- TV 6, large values. -/
theorem test_enclen_largest : nextHas (step (presenting 0 0 0xFFFFFFFF 0)) (fun t => t.rlen.toNat == 5726623060) = true := by decide

/-- TV 6, n = 5. -/
theorem test_enclen_five : nextHas (step (presenting 0 0 5 0)) (fun t => t.rlen.toNat == 7 && t.cmd == 0) = true := by decide

/-- TV 6, m = 5: a length that is 1 modulo 4. -/
theorem test_declen_five : nextHas (step (presenting 1 0 5 0)) (fun t => t.rlen.toNat == 3 && t.status == .ok) = true := by decide

/-- TV 6, large values. -/
theorem test_declen_largest : nextHas (step (presenting 1 0 0xFFFFFFFF 0)) (fun t => t.rlen.toNat == 3221225471) = true := by decide

/-- TV 2: the upper bits of `A` are ignored. -/
theorem test_enc6_ignores_upper_bits : nextHas (step (presenting 2 0x7F 0 0)) (fun t => t.r == 0x2F && !t.inv) = true := by decide

/-- TV 2, v = 62, and P5. -/
theorem test_enc6_plus : nextHas (step (presenting 2 0x3E 0 0)) (fun t => t.r == 0x2B && t.rlen == 0) = true := by decide

/-- TV 3, 0xFFFFFF41. -/
theorem test_dec6_ignores_upper_bits : nextHas (step (presenting 3 0xFFFFFF41 0 0)) (fun t => t.r == 0 && !t.inv) = true := by decide

/-- TV 3, 0xC1: an alphabet byte with its top bit set. -/
theorem test_dec6_top_bit : nextHas (step (presenting 3 0xC1 0 0)) (fun t => t.r == 0xFFFFFFFF && t.inv && t.status == .ok) = true := by
  decide

/-- TV 4, 0xAB4D616E. -/
theorem test_enc3_ignores_top_byte : nextHas (step (presenting 4 0xAB4D616E 0 0)) (fun t => t.r == 0x54574675) = true := by decide

/-- TV 4, 03 D9 7E. -/
theorem test_enc3_groups : nextHas (step (presenting 4 0x03D97E 0 0)) (fun t => t.r == 0x41396C2B) = true := by decide

/-- TV 5, "FPuc". -/
theorem test_dec4_valid : nextHas (step (presenting 5 0x46507563 0 0)) (fun t => t.r == 0x0014FB9C && !t.inv) = true := by decide

/-- TV 5, 41 3D 42 41: the invalid symbol is second. -/
theorem test_dec4_invalid : nextHas (step (presenting 5 0x413D4241 0 0)) (fun t => t.r == 0x00FFF040 && t.inv && t.status == .ok) = true := by
  decide

/-- P1, step 0. -/
theorem test_encode_issue : nextHas (step (presenting 6 0 1 2)) (fun t => t.cmd == 6 && t.phase == .check) = true := by decide

/-- P1, step 3: the zero-padded remainder 00 leaves "AA". -/
theorem test_encode_remainder :
    nextHas (step (busy 6 .rem 1 2 0 [0x00])) (fun t => t.dst == [(0, 0x41), (1, 0x41)] && t.phase == .fin) = true := by decide

/-- P3, step 0. -/
theorem test_decode_issue : nextHas (step (presenting 7 0 3 2)) (fun t => t.cmd == 7 && t.phase == .check) = true := by decide

/-- P3, step 3: "A=B" leaves FF F0 and the error. -/
theorem test_decode_remainder :
    nextHas (step (busy 7 .rem 3 2 0 [0x41, 0x3D, 0x42])) (fun t => t.dst == [(0, 0xFF), (1, 0xF0)] && t.err && t.phase == .fin) = true := by
  decide

/-- P2, the first group of the DECODE. -/
theorem test_decode_group :
    nextHas (step (busy 7 .full 6 4 0 [0x54, 0x57, 0x46, 0x75, 0x54, 0x51]))
      (fun t => t.dst == [(0, 0x4D), (1, 0x61), (2, 0x6E)] && t.idx == 1 && !t.err) = true := by decide

/-- P2, the first chunk of the ENCODE. -/
theorem test_encode_chunk :
    nextHas (step (busy 6 .full 4 6 0 [0x4D, 0x61, 0x6E, 0x4D]))
      (fun t => t.dst == [(0, 0x54), (1, 0x57), (2, 0x46), (3, 0x75)] && t.idx == 1) = true := by decide

/-- P4: one byte short. -/
theorem test_encode_short : nextHas (step (busy 6 .check 3 3 0 [])) (fun t => t.status == .invalidLength && t.phase == .idle) = true := by
  decide

/-- P6, step 5. -/
theorem test_decode_finish :
    nextHas (step { busy 7 .fin 6 4 1 [] with err := true }) (fun t => t.status == .invalidEncoding && t.inv && t.rlen == 0) = true := by
  decide

/-- R140: a command that reads an operand the host has not written runs on a free value, not on the 0 that the field holds. -/
theorem test_unwritten_operand_is_free :
    step { State.reset with script := [.issue 2] } =
      .next { State.reset with cmd := 2, r := enc6Result (enc6 (enc6Operand (Config.unspecifiedWord 0))) } := rfl

/-- R21 and R25: the codes. -/
theorem test_status_and_phase_codes :
    [Status.ok, .invalidLength, .invalidEncoding].map statusCode = [0, 1, 2] ∧
      [Phase.idle, .check, .full, .rem, .fin].map phaseCode = [0, 1, 2, 3, 4] := by decide

/-! ## The hypotheses of the statements can be met -/

/-- The next step is the block's, and it answers a next state. -/
def moves (s : State) : Bool := nextHas (step s) fun _ => true

/-- A command in progress that meets the invariant. -/
theorem inv_busy (d : Driver) (s : State) (hd : driverOf s.cmd = some d) (hsrc : Memory.wf s.src) (hdst : Memory.wf s.dst)
    (hin : ∀ c ∈ s.src, c.1 < s.srcSize) (hout : ∀ c ∈ s.dst, c.1 < s.dstSize)
    (hsize : s.srcSize ≤ Config.indexCount ∧ s.dstSize ≤ Config.indexCount)
    (hfit : s.inputLength ≤ s.srcSize ∧ s.capacity ≤ s.dstSize) (hroom : need d s.inputLength ≤ s.capacity)
    (hidx : s.phase = .full → s.idx.toNat ≤ fullChunks d s.inputLength)
    (hend : s.phase = .rem ∨ s.phase = .fin → s.idx.toNat = fullChunks d s.inputLength)
    (herr : s.err = false) (hok : s.status = .ok) : Inv s where
  src_canonical := hsrc
  dst_canonical := hdst
  src_inside := hin
  dst_inside := hout
  src_size := hsize.1
  dst_size := hsize.2
  driver := fun _ => ⟨d, hd, ⟨hfit.1, hfit.2, fun _ => hroom, hidx, hend, fun _ _ => herr⟩⟩
  error_empty := fun h => absurd hok h
  length_error_flag := fun h => nomatch hok.symm.trans h
  encoding_error_flag := fun h => nomatch hok.symm.trans h

/-- A word of three bits, and one with bits above bit 2 set. -/
theorem witness_StepRunsThePresentedCommand :
    (presenting 7 0 0 0).script = .issue 7 :: [] ∧ decodeTableWord 3 7 = some .decode ∧
      nextHas (step (State.reset.withFetchWord 3 7)) (fun t => t.cmd == 7) = true ∧
      nextHas (step (State.reset.withFetchWord 8 0xFE)) (fun t => t.cmd == 6 && t.phase == .check) = true := by decide

theorem witness_ResetAbandonsACommand :
    let s := { busy 7 .rem 3 2 0 [] with script := [.reset] }
    s.script = .reset :: [] ∧ s.phase ≠ .idle := by decide

/-- EnclenIsTheEncodedLength, DeclenIsTheDecodedLength, Enc6GivesTheCharacter, Dec6GivesValueAndValidity, Enc3EncodesFourGroups,
TripletEncoderIsInjective, Dec4GivesBytesAndSignal, RegisterPackingsAreInverse, ShortCommandsLeaveTheRestAlone: an idle block. -/
theorem witness_idle_block : State.reset.phase = .idle ∧ ∀ i, isShort i = true → moves { State.reset with script := [.issue (encode i)] } = true := by
  refine ⟨rfl, fun i h => ?_⟩
  cases i <;> first | rfl | cases h

theorem witness_EncodedLengthFitsRlen :
    let s := busy 6 .check 0xC0000000 0xFFFFFFFF 0 []
    s.phase = .check ∧ s.cmd = 6 ∧ HostWaits s ∧ 3 * 2 ^ 30 ≤ s.inputLength ∧ s.inputLength < 2 ^ 32 := by
  exact ⟨rfl, rfl, .inl rfl, by decide, by decide⟩

theorem witness_DeclenIsTheDecodedLength : (4294967295 : Nat) < 2 ^ 32 ∧ declen 4294967295 = 3221225471 := by decide

theorem witness_LengthsAreInverseButForOne : (0 : Nat) % 4 ≠ 1 ∧ (1 : Nat) % 4 = 1 ∧ enclen (declen 1) = 0 := by decide

theorem witness_SymbolEncoderIsTheAlphabet : enc6 63 = enc6 63 ∧ inAlphabet 0x2F = true ∧ enc6 63 = 0x2F := by decide

theorem witness_SymbolDecoderIsTheTable : inAlphabet 0x7A = true ∧ (dec6 0x7A).toInt = 51 := by decide

theorem witness_ValidityIsBitEight : inAlphabet 0x5A = true ∧ inAlphabet 0x5B = false := by decide

theorem witness_TenBitsSufficeForSymbolArithmetic : 10 ≤ 10 ∧ enc6At 10 63 = 0x2F ∧ (dec6At 10 0xFF).toInt = -1 := by decide

theorem witness_TripletEncoderIsInjective : enc3 ⟨0xFF, 0xFF, 0xFF⟩ = enc3 ⟨0xFF, 0xFF, 0xFF⟩ := rfl

theorem witness_SignalMeansSomeSymbolInvalid :
    (dec4 ⟨0x41, 0x41, 0x41, 0x3D⟩).invalid = true ∧ (dec4 ⟨0x41, 0x41, 0x41, 0x41⟩).invalid = false := by decide

/-- ValidQuadGivesItsBits, QuadDecoderInvertsTripletEncoder. -/
theorem witness_valid_quad : quadInAlphabet ⟨0x2B, 0x2F, 0x30, 0x7A⟩ = true := by decide

theorem witness_ShortCommandsForgetTheState :
    let s := State.reset
    let t := { State.reset with r := 0xFFFFFFFF, status := .invalidEncoding, inv := true, cap := 9 }
    isShort .enc3 = true ∧ s.phase = .idle ∧ t.phase = .idle ∧ s.operandA = t.operandA ∧ s.inputLength = t.inputLength ∧ s ≠ t :=
  ⟨rfl, rfl, rfl, rfl, rfl, by decide⟩

/-- IssueLatchesAndStarts: the largest lengths that the memories allow. -/
theorem witness_IssueLatchesAndStarts :
    let s := { idleWith 16 [] with n := 16 }
    s.phase = .idle ∧ s.inputLength ≤ s.srcSize ∧ s.capacity ≤ s.dstSize ∧ isShort .dec4 = true := by decide

theorem witness_BrokenIssueIsRefused :
    (busy 6 .check 0 0 0 []).phase ≠ .idle ∧
    (let s := { idleWith 16 [] with n := 17 }
     s.phase = .idle ∧ s.srcSize < s.inputLength) ∧
    (let s := { idleWith 17 [] with n := 16 }
     s.phase = .idle ∧ s.inputLength ≤ s.srcSize ∧ s.dstSize < s.capacity) := by decide

/-- CheckComparesCapacityWithNeed: one short, and exact, for each driver. -/
theorem witness_CheckComparesCapacityWithNeed :
    (∀ cap, HostWaits (busy 6 .check 3 cap 0 []) ∧ HostWaits (busy 7 .check 4 cap 0 [])) ∧
    (busy 6 .check 3 3 0 []).capacity < enclen (busy 6 .check 3 3 0 []).inputLength ∧
    (busy 7 .check 4 2 0 []).capacity < declen (busy 7 .check 4 2 0 []).inputLength ∧
    enclen (busy 6 .check 3 4 0 []).inputLength ≤ (busy 6 .check 3 4 0 []).capacity ∧
    declen (busy 7 .check 4 3 0 []).inputLength ≤ (busy 7 .check 4 3 0 []).capacity :=
  ⟨fun _ => ⟨.inl rfl, .inl rfl⟩, by decide, by decide, by decide, by decide⟩

theorem witness_EncodeFullStepEncodesOneChunk :
    let s := { busy 6 .full 3 4 0 [0xFF, 0x00, 0x01] with srcSize := 3, dstSize := 4 }
    s.phase = .full ∧ s.cmd = 6 ∧ HostWaits s ∧ s.idx.toNat < s.inputLength / 3 ∧ 3 * s.idx.toNat + 3 ≤ s.srcSize ∧
      4 * s.idx.toNat + 4 ≤ s.dstSize ∧ memRead s.src (3 * s.idx.toNat) = some 0xFF ∧
      memRead s.src (3 * s.idx.toNat + 1) = some 0x00 ∧ memRead s.src (3 * s.idx.toNat + 2) = some 0x01 :=
  ⟨rfl, rfl, .inl rfl, by decide, by decide, by decide, by decide, by decide, by decide⟩

theorem witness_DecodeFullStepDecodesOneGroup :
    let s := { busy 7 .full 4 3 0 [0x3D, 0x41, 0x42, 0x43] with srcSize := 4, dstSize := 3, err := true }
    s.phase = .full ∧ s.cmd = 7 ∧ HostWaits s ∧ s.idx.toNat < s.inputLength / 4 ∧ 4 * s.idx.toNat + 4 ≤ s.srcSize ∧
      3 * s.idx.toNat + 3 ≤ s.dstSize ∧ memRead s.src (4 * s.idx.toNat) = some 0x3D ∧
      memRead s.src (4 * s.idx.toNat + 1) = some 0x41 ∧ memRead s.src (4 * s.idx.toNat + 2) = some 0x42 ∧
      memRead s.src (4 * s.idx.toNat + 3) = some 0x43 :=
  ⟨rfl, rfl, .inl rfl, by decide, by decide, by decide, by decide, by decide, by decide, by decide⟩

theorem witness_EndOfFullChunksOnlyMovesOn :
    let s := busy 6 .full 5 7 1 []
    let t := busy 7 .full 5 3 1 []
    s.phase = .full ∧ HostWaits s ∧ s.cmd = 6 ∧ s.idx.toNat = s.inputLength / 3 ∧
      t.phase = .full ∧ HostWaits t ∧ t.cmd = 7 ∧ t.idx.toNat = t.inputLength / 4 :=
  ⟨rfl, .inl rfl, rfl, by decide, rfl, .inl rfl, rfl, by decide⟩

/-- EncodeRemainderPadsWithZeros: a remainder of 0, 1 and 2 bytes, in memories just large enough. -/
theorem witness_EncodeRemainderPadsWithZeros :
    (∀ n, HostWaits (busy 6 .rem n 16 0 [0xFF, 0xFE])) ∧
    (busy 6 .rem 0 16 0 []).inputLength % 3 = 0 ∧
    (let s := { busy 6 .rem 1 2 0 [0xFF] with srcSize := 1, dstSize := 2 }
     s.inputLength % 3 = 1 ∧ s.inputLength ≤ s.srcSize ∧ enclen s.inputLength ≤ s.dstSize ∧ memRead s.src (3 * (s.inputLength / 3)) = some 0xFF) ∧
    (let s := { busy 6 .rem 2 3 0 [0xFF, 0xFE] with srcSize := 2, dstSize := 3 }
     s.inputLength % 3 = 2 ∧ s.inputLength ≤ s.srcSize ∧ enclen s.inputLength ≤ s.dstSize ∧
       memRead s.src (3 * (s.inputLength / 3)) = some 0xFF ∧ memRead s.src (3 * (s.inputLength / 3) + 1) = some 0xFE) :=
  ⟨fun _ => .inl rfl, by decide, by decide, by decide⟩

/-- DecodeRemainderPadsWithFillers: a remainder of 0, 1, 2 and 3 symbols, in memories just large enough. -/
theorem witness_DecodeRemainderPadsWithFillers :
    (∀ n, HostWaits (busy 7 .rem n 16 0 [])) ∧
    (let s := { busy 7 .rem 0 0 0 [] with srcSize := 0, dstSize := 0 }
     s.inputLength ≤ s.srcSize ∧ declen s.inputLength ≤ s.dstSize ∧ s.inputLength % 4 = 0) ∧
    (let s := { busy 7 .rem 1 0 0 [0x41] with srcSize := 1, dstSize := 0 }
     s.inputLength ≤ s.srcSize ∧ declen s.inputLength ≤ s.dstSize ∧ s.inputLength % 4 = 1 ∧ memRead s.src (4 * (s.inputLength / 4)) = some 0x41) ∧
    (let s := { busy 7 .rem 2 1 0 [0x41, 0x51] with srcSize := 2, dstSize := 1 }
     s.inputLength ≤ s.srcSize ∧ declen s.inputLength ≤ s.dstSize ∧ s.inputLength % 4 = 2 ∧ memRead s.src (4 * (s.inputLength / 4)) = some 0x41 ∧
       memRead s.src (4 * (s.inputLength / 4) + 1) = some 0x51) ∧
    (let s := { busy 7 .rem 3 2 0 [0x41, 0x3D, 0x42] with srcSize := 3, dstSize := 2 }
     s.inputLength ≤ s.srcSize ∧ declen s.inputLength ≤ s.dstSize ∧ s.inputLength % 4 = 3 ∧ memRead s.src (4 * (s.inputLength / 4)) = some 0x41 ∧
       memRead s.src (4 * (s.inputLength / 4) + 1) = some 0x3D ∧ memRead s.src (4 * (s.inputLength / 4) + 2) = some 0x42) :=
  ⟨fun _ => .inl rfl, by decide, by decide, by decide, by decide⟩

theorem witness_FinishChoosesTheStatus :
    let s := busy 6 .fin 3 4 1 []
    let t := busy 7 .fin 4 3 1 []
    s.phase = .fin ∧ HostWaits s ∧ s.cmd = 6 ∧ t.phase = .fin ∧ HostWaits t ∧ t.cmd = 7 ∧ t.err = false ∧
      ({ t with err := true } : State).err = true :=
  ⟨rfl, .inl rfl, rfl, rfl, .inl rfl, rfl, rfl, rfl⟩

/-- MicroStepChangesOnlyItsChunk: each phase of each driver, the step answering a next state. -/
theorem witness_MicroStepChangesOnlyItsChunk :
    (∀ p n c idx, HostWaits (busy 6 p n c idx [0x41, 0x42, 0x43, 0x44])) ∧
    moves (busy 6 .check 4 6 0 []) = true ∧ moves (busy 6 .full 4 6 0 [0x41, 0x42, 0x43, 0x44]) = true ∧
    moves (busy 6 .rem 4 6 1 [0x41, 0x42, 0x43, 0x44]) = true ∧ moves (busy 6 .fin 4 6 1 []) = true ∧
    moves (busy 7 .check 4 3 0 []) = true ∧ moves (busy 7 .full 4 3 0 [0x41, 0x42, 0x43, 0x44]) = true ∧
    moves (busy 7 .rem 3 2 0 [0x41, 0x42, 0x43]) = true ∧ moves (busy 7 .fin 4 3 1 []) = true ∧
    driverOf 6 = some .encode ∧ driverOf 7 = some .decode :=
  ⟨fun _ _ _ _ => .inl rfl, by decide, by decide, by decide, by decide, by decide, by decide, by decide, by decide, by decide, by decide⟩

/-- AccumulatorIsNeverCleared: a valid group after an invalid one, a valid remainder, the last step. -/
theorem witness_AccumulatorIsNeverCleared :
    (∀ p, HostWaits { busy 7 p 4 3 0 [0x41, 0x42, 0x43, 0x44] with err := true }) ∧
    moves { busy 7 .full 4 3 0 [0x41, 0x42, 0x43, 0x44] with err := true } = true ∧
    moves { busy 7 .rem 2 1 0 [0x41, 0x42] with err := true } = true ∧
    moves { busy 7 .fin 4 3 1 [] with err := true } = true :=
  ⟨fun _ => .inl rfl, by decide, by decide, by decide⟩

theorem witness_FillerIsUnobservable : inAlphabet 0x2F = true ∧ (0x2F : Byte) ≠ Config.filler := by decide

/-- SourceBeyondInputIsNeverRead: the first index past the input, and a step that is refused for want of a byte of the input. -/
theorem witness_SourceBeyondInputIsNeverRead :
    let s := busy 7 .rem 3 2 0 [0x41, 0x42, 0x43]
    s.phase ≠ .idle ∧ HostWaits s ∧ s.inputLength ≤ 3 ∧ moves s = true ∧ step (busy 7 .rem 3 2 0 [0x41]) = .refused .unwrittenSource :=
  ⟨by decide, .inl rfl, by decide, by decide, rfl⟩

/-- A DECODE of one full group, about to be carried out. -/
theorem inv_full_group : Inv (busy 7 .full 4 3 0 [0x41, 0x42, 0x43, 0x44]) :=
  inv_busy .decode _ rfl (by decide) (by decide) (by decide) (by decide) (by decide) (by decide) (by decide) (by decide)
    (by decide) rfl rfl

/-- DestinationBeyondNeedIsNeverWritten: index 3 is the first past the output. -/
theorem witness_DestinationBeyondNeedIsNeverWritten :
    let s := busy 7 .full 4 3 0 [0x41, 0x42, 0x43, 0x44]
    Inv s ∧ s.phase ≠ .idle ∧ driverOf s.cmd = some .decode ∧ HostWaits s ∧ moves s = true ∧ need .decode s.inputLength ≤ 3 :=
  ⟨inv_full_group, by decide, rfl, .inl rfl, by decide, by decide⟩

/-- UnwrittenSourceIsRefused: the last byte of a full group, of a remainder of three symbols, and of a remainder of two bytes, is
the one that nothing has written. -/
theorem witness_UnwrittenSourceIsRefused :
    (let s := busy 7 .full 4 3 0 [0x41, 0x42, 0x43]
     Inv s ∧ s.phase ≠ .idle ∧ driverOf s.cmd = some .decode ∧ HostWaits s ∧ 3 < (chunkReads .decode s).2 ∧
       memRead s.src ((chunkReads .decode s).1 + 3) = none) ∧
    (let s := busy 7 .rem 7 5 1 [0x41, 0x42, 0x43, 0x44, 0x45, 0x46]
     Inv s ∧ s.phase ≠ .idle ∧ driverOf s.cmd = some .decode ∧ HostWaits s ∧ 2 < (chunkReads .decode s).2 ∧
       memRead s.src ((chunkReads .decode s).1 + 2) = none) ∧
    (let s := busy 6 .rem 2 3 0 [0x41]
     Inv s ∧ s.phase ≠ .idle ∧ driverOf s.cmd = some .encode ∧ HostWaits s ∧ 1 < (chunkReads .encode s).2 ∧
       memRead s.src ((chunkReads .encode s).1 + 1) = none) :=
  ⟨⟨inv_busy .decode _ rfl (by decide) (by decide) (by decide) (by decide) (by decide) (by decide) (by decide) (by decide)
      (by decide) rfl rfl, by decide, rfl, .inl rfl, by decide, by decide⟩,
    ⟨inv_busy .decode _ rfl (by decide) (by decide) (by decide) (by decide) (by decide) (by decide) (by decide) (by decide)
      (by decide) rfl rfl, by decide, rfl, .inl rfl, by decide, by decide⟩,
    ⟨inv_busy .encode _ rfl (by decide) (by decide) (by decide) (by decide) (by decide) (by decide) (by decide) (by decide)
      (by decide) rfl rfl, by decide, rfl, .inl rfl, by decide, by decide⟩⟩

/-- A block ready to run a driver over the bytes. -/
theorem ready_three (cap : Length) (h : cap.toNat ≤ 16) : Ready (idleWith cap [0x41, 0x42, 0x43]) [0x41, 0x42, 0x43] where
  idle := rfl
  waits := .inl rfl
  length := rfl
  holds := by
    intro i hi
    match i, hi with
    | 0, _ => rfl
    | 1, _ => rfl
    | 2, _ => rfl
  input_fits := by
    show (3 : Length).toNat ≤ 16
    decide
  offer_fits := h

/-- The empty input with no capacity. -/
theorem ready_empty : Ready (idleWith 0 []) [] where
  idle := rfl
  waits := .inl rfl
  length := rfl
  holds := fun i h => absurd h (Nat.not_lt_zero i)
  input_fits := by decide
  offer_fits := by decide

/-- A block ready to run a driver over five bytes. -/
theorem ready_five (cap : Length) (h : cap.toNat ≤ 16) :
    Ready (idleWith cap [0x41, 0x42, 0x43, 0x44, 0x45]) [0x41, 0x42, 0x43, 0x44, 0x45] where
  idle := rfl
  waits := .inl rfl
  length := rfl
  holds := by
    intro i hi
    match i, hi with
    | 0, _ => rfl
    | 1, _ => rfl
    | 2, _ => rfl
    | 3, _ => rfl
    | 4, _ => rfl
  input_fits := by
    show (5 : Length).toNat ≤ 16
    decide
  offer_fits := h

/-- Exactly the capacity that is needed, and the empty input. -/
theorem witness_EncodeRunsToCompletion :
    (Ready (idleWith 4 [0x41, 0x42, 0x43]) [0x41, 0x42, 0x43] ∧ enclen (idleWith 4 [0x41, 0x42, 0x43]).inputLength ≤ 4) ∧
    (Ready (idleWith 0 []) [] ∧ enclen (idleWith 0 []).inputLength ≤ 0) :=
  ⟨⟨ready_three 4 (by decide), by decide⟩, ready_empty, by decide⟩

/-- Exactly the capacity that is needed, and the empty text. -/
theorem witness_DecodeRunsToCompletion :
    (Ready (idleWith 2 [0x41, 0x42, 0x43]) [0x41, 0x42, 0x43] ∧ declen (idleWith 2 [0x41, 0x42, 0x43]).inputLength ≤ 2) ∧
    (Ready (idleWith 0 []) [] ∧ declen (idleWith 0 []).inputLength ≤ 0) :=
  ⟨⟨ready_three 2 (by decide), by decide⟩, ready_empty, by decide⟩

/-- One short and exact, for each driver; then a later step that ends a command; then a short command. -/
theorem witness_ShortCapacityEndsInInvalidLength :
    (∀ cap, HostWaits (idleWith cap [0x41, 0x42, 0x43])) ∧
    (let s := idleWith 3 [0x41, 0x42, 0x43]
     s.phase = .idle ∧ s.inputLength ≤ s.srcSize ∧ s.capacity ≤ s.dstSize ∧ s.capacity < need .encode s.inputLength ∧
       need .decode s.inputLength ≤ s.capacity) ∧
    (let s := idleWith 1 [0x41, 0x42, 0x43]
     s.capacity < need .decode s.inputLength) ∧
    need .encode (idleWith 4 [0x41, 0x42, 0x43]).inputLength ≤ (idleWith 4 [0x41, 0x42, 0x43]).capacity ∧
    (HostWaits (busy 7 .fin 4 3 1 []) ∧ nextHas (step (busy 7 .fin 4 3 1 [])) (fun t => t.phase == .idle) = true) ∧
    (isShort .dec6 = true ∧ nextHas (exec .dec6 State.reset) (fun _ => true) = true) :=
  ⟨fun _ => .inl rfl, by decide, by decide, by decide, ⟨.inl rfl, by decide⟩, by decide⟩

theorem witness_DecodeAcceptsExactlyValidText :
    Ready (idleWith 2 [0x41, 0x42, 0x43]) [0x41, 0x42, 0x43] ∧ acceptable [0x41, 0x42, 0x43] = true ∧
      Ready (idleWith 3 [0x41, 0x42, 0x43, 0x44, 0x45]) [0x41, 0x42, 0x43, 0x44, 0x45] ∧
      acceptable [0x41, 0x42, 0x43, 0x44, 0x45] = false :=
  ⟨ready_three 2 (by decide), by decide, ready_five 3 (by decide), by decide⟩

theorem witness_InvalidLengthHasPriority :
    (Ready (idleWith 2 [0x41, 0x42, 0x43, 0x44, 0x45]) [0x41, 0x42, 0x43, 0x44, 0x45] ∧
      (idleWith 2 [0x41, 0x42, 0x43, 0x44, 0x45]).capacity < declen (idleWith 2 [0x41, 0x42, 0x43, 0x44, 0x45]).inputLength) ∧
    (Ready (idleWith 3 [0x41, 0x42, 0x43, 0x44, 0x45]) [0x41, 0x42, 0x43, 0x44, 0x45] ∧
      (idleWith 3 [0x41, 0x42, 0x43, 0x44, 0x45]).inputLength = 5 ∧ 3 ≤ (idleWith 3 [0x41, 0x42, 0x43, 0x44, 0x45]).capacity) :=
  ⟨⟨ready_five 2 (by decide), by decide⟩, ready_five 3 (by decide), by decide, by decide⟩

/-- One short and exact; the last number of steps after which the block is still busy. -/
theorem witness_StepCountIsFullPlusFour :
    (Ready (idleWith 3 [0x41, 0x42, 0x43]) [0x41, 0x42, 0x43] ∧ (idleWith 3 [0x41, 0x42, 0x43]).capacity < need .encode 3) ∧
    (Ready (idleWith 4 [0x41, 0x42, 0x43]) [0x41, 0x42, 0x43] ∧ need .encode 3 ≤ (idleWith 4 [0x41, 0x42, 0x43]).capacity ∧
      4 < fullChunks .encode 3 + 4) :=
  ⟨⟨ready_three 3 (by decide), by decide⟩, ready_three 4 (by decide), by decide, by decide⟩

/-- DecodeOfEncodeIsTheInput: the ENCODE of three bytes, and a block that holds their symbols with exactly the capacity needed. -/
theorem witness_DecodeOfEncodeIsTheInput :
    Ready (idleWith 4 [0x41, 0x42, 0x43]) [0x41, 0x42, 0x43] ∧ enclen 3 ≤ (idleWith 4 [0x41, 0x42, 0x43]).capacity ∧
    (let u := idleWith 3 (encodeText [0x41, 0x42, 0x43])
     u.phase = .idle ∧ u.inputLength = enclen 3 ∧ u.src = memWriteAll [] 0 (encodeText [0x41, 0x42, 0x43]) ∧
       u.inputLength ≤ u.srcSize ∧ u.capacity ≤ u.dstSize ∧ 3 ≤ u.capacity) ∧
    HostWaits (idleWith 3 (encodeText [0x41, 0x42, 0x43])) :=
  ⟨ready_three 4 (by decide), by decide, by decide, .inl rfl⟩

/-- The four bytes of the group have all been written. -/
theorem source_written : SourceWritten (busy 7 .full 4 3 0 [0x41, 0x42, 0x43, 0x44]) := by
  have : ∀ i < 4, (memRead (busy 7 .full 4 3 0 [0x41, 0x42, 0x43, 0x44]).src i).isSome = true := by decide
  exact fun i hi => this i hi

theorem witness_EveryDriverTerminates :
    let s := busy 7 .full 4 3 0 [0x41, 0x42, 0x43, 0x44]
    Inv s ∧ HostWaits s ∧ BlockReady s ∧ s.phase ≠ .idle :=
  ⟨inv_full_group, .inl rfl, fun _ => source_written, by decide⟩

/-- EveryStepKeepsTheInvariant, NoReachableStateIsStuck: a busy state that meets the invariant and takes a step. -/
theorem witness_invariant : Inv (busy 7 .full 4 3 0 [0x41, 0x42, 0x43, 0x44]) ∧
    moves (busy 7 .full 4 3 0 [0x41, 0x42, 0x43, 0x44]) = true := ⟨inv_full_group, by decide⟩

/-- DutifulHostIsNeverRefused: a busy block whose host is done, and a host about to issue a driver whose operands it has written. -/
theorem witness_DutifulHostIsNeverRefused :
    (let s := busy 7 .full 4 3 0 [0x41, 0x42, 0x43, 0x44]
     Inv s ∧ BlockReady s ∧ ProtocolKept s) ∧
    (let s := { idleWith 0 [] with script := [.issue 7] }
     BlockReady s ∧ ProtocolKept s ∧ moves s = true) :=
  ⟨⟨inv_full_group, fun _ => source_written, trivial⟩,
    fun h => absurd rfl h, ⟨rfl, ⟨rfl, rfl, fun i h => absurd h (Nat.not_lt_zero i)⟩, fun _ => ⟨by decide, by decide⟩⟩, by decide⟩

/-- StepsAreAlikeForAllSecrets, RunsAreAlikeForAllSecrets: P6 and its valid twin. -/
theorem witness_alike :
    let s := busy 7 .full 6 4 0 [0x3D, 0x41, 0x41, 0x41, 0x41, 0x41]
    let t := { busy 7 .full 6 4 0 [0x41, 0x41, 0x41, 0x41, 0x41, 0x41] with a := 1, err := true }
    Alike s t ∧ s.src ≠ t.src ∧ moves s = true :=
  ⟨⟨rfl, rfl, rfl, rfl, rfl, rfl, rfl, rfl, rfl, rfl, rfl, rfl, rfl, rfl, rfl⟩, by decide, by decide⟩

theorem witness_IdleBlockDoesNothing :
    State.reset.phase = .idle ∧ State.reset.script = [] ∧ ({ State.reset with script := [.wait] } : State).script = .wait :: [] ∧
      ({ State.reset with script := [.tick] } : State).script = .tick :: [] := by decide

/-- HostWritesLand: each operand register, the last index of either memory, and the first index past it. -/
theorem witness_HostWritesLand :
    (let s := { idleWith 0 [] with script := [.writeSrc 15 0xFF] }
     s.phase = .idle ∧ s.script = .writeSrc 15 0xFF :: [] ∧ 15 < s.srcSize) ∧
    (let s := { idleWith 0 [] with script := [.writeDst 15 0xFF] }
     s.phase = .idle ∧ s.script = .writeDst 15 0xFF :: [] ∧ 15 < s.dstSize) ∧
    (let s := { idleWith 0 [] with script := [.writeSrc 16 0xFF] }
     s.phase = .idle ∧ s.script = .writeSrc 16 0xFF :: [] ∧ s.srcSize ≤ 16) ∧
    (let s := { idleWith 0 [] with script := [.writeDst 16 0xFF] }
     s.phase = .idle ∧ s.script = .writeDst 16 0xFF :: [] ∧ s.dstSize ≤ 16) ∧
    ({ State.reset with script := [.setA 1] } : State).script = .setA 1 :: [] ∧
    ({ State.reset with script := [.setN 1] } : State).script = .setN 1 :: [] ∧
    ({ State.reset with script := [.setCap 1] } : State).script = .setCap 1 :: [] := by decide

/-- An idle block with one byte in either memory, its operands written, whose host reads in the step that comes. -/
def reading (what : ReadTarget) : State :=
  { idleWith 1 [0xFF] with aWritten := true, dst := [(0, 0xFF)], script := [.read what] }

/-- HostReadsChangeNothing: each register, the byte that is written in either memory, one that is not, the first index past. -/
theorem witness_HostReadsChangeNothing :
    (∀ what, (reading what).phase = .idle ∧ (reading what).script = .read what :: []) ∧
    moves (reading .a) = true ∧ moves (reading .n) = true ∧ moves (reading .cap) = true ∧ moves (reading .r) = true ∧
    moves (reading .rlen) = true ∧ moves (reading .inv) = true ∧ moves (reading .status) = true ∧ moves (reading .busy) = true ∧
    moves { reading .status with status := .invalidLength } = true ∧
    moves { reading .status with status := .invalidEncoding } = true ∧
    (reading .a).aWritten = true ∧ (reading .n).nWritten = true ∧ (reading .cap).capWritten = true ∧
    (let s := reading (.src 0)
     0 < s.srcSize ∧ memRead s.src 0 = some 0xFF ∧ moves s = true) ∧
    (let s := reading (.dst 0)
     0 < s.dstSize ∧ memRead s.dst 0 = some 0xFF ∧ moves s = true) ∧
    (let s := reading (.src 15)
     15 < s.srcSize ∧ memRead s.src 15 = none) ∧
    (let s := reading (.dst 15)
     15 < s.dstSize ∧ memRead s.dst 15 = none) ∧
    (reading (.src 16)).srcSize ≤ 16 ∧ (reading (.dst 16)).dstSize ≤ 16 :=
  ⟨fun _ => ⟨rfl, rfl⟩, by decide⟩

/-- BusyBlockRefusesTheHost: each move that is refused, and the reading of `busy`, which is not. -/
theorem witness_BusyBlockRefusesTheHost :
    (∀ m, ({ busy 6 .fin 0 0 0 [] with script := [m] } : State).phase ≠ .idle) ∧
    (∀ m ∈ [HostMove.setA 1, .setN 1, .setCap 1, .writeSrc 0 1, .writeDst 0 1, .read .a, .read .r, .read (.src 0), .issue 6],
      moves { busy 6 .fin 0 0 0 [] with script := [m] } = false) ∧
    moves { busy 6 .fin 0 0 0 [] with script := [.read .busy] } = true := by
  exact ⟨fun _ h => (nomatch h), by decide, by decide⟩

/-- An idle block whose host is about to make the moves of the line, with a read to follow. -/
def atLine (line : HostLine) : State := { idleWith 0 [] with script := lineMoves line ++ [.read .status] }

/-- HostLinesAreTheirActions: each kind of line, LOAD and FILL up to the last index, a short command and a driver, and the wait
while the block is busy and when it is idle. -/
theorem witness_HostLinesAreTheirActions :
    (∀ line, (atLine line).phase = .idle ∧ (atLine line).script = lineMoves line ++ [.read .status]) ∧
    moves (atLine (.setA 1)) = true ∧ moves (atLine (.setN 1)) = true ∧ moves (atLine (.setCap 1)) = true ∧
    14 + [(1 : Byte), 2].length ≤ (atLine (.loadSrc 14 [1, 2])).srcSize ∧ 14 + 2 ≤ (atLine (.fillDst 14 2 0xEE)).dstSize ∧
    moves (atLine (.command .enclen)) = true ∧ moves (atLine (.command .decode)) = true ∧
    moves { busy 7 .fin 0 0 0 [] with script := [.wait, .read .status] } = true ∧
    moves { idleWith 0 [] with script := [.wait, .read .status] } = true :=
  ⟨fun _ => ⟨rfl, rfl⟩, by decide⟩

/-- R56: a mnemonic line is its command and a wait. -/
theorem test_command_line : lineMoves (.command .decode) = [.issue 0b111, .wait] := by decide

end Sys2Proof.Tests
end

/-! The command codes (R48): decoder and encoder are inverse, and the opcode table is the graph of the encoder under a full mask. -/

namespace Sys2Proof

/-- Each command of R48's map is what its code decodes to. -/
@[simp] theorem decodePort_encode (i : Instr) : decodePort (encode i) = i := by
  cases i <;> rfl

/-- No two codes decode to the same command: the eight codes are checked one by one. -/
@[simp] theorem encode_decodePort : ∀ op : Code, encode (decodePort op) = op := by decide

theorem eq_encode_iff (op : Code) (i : Instr) : op = encode i ↔ i = decodePort op := by
  constructor
  · rintro rfl
    exact (decodePort_encode i).symm
  · rintro rfl
    exact (encode_decodePort op).symm

/-- R48's `mask = 0b111` and `match = op`, row by row. -/
theorem mask_and_pattern_of_mem_codeTable :
    ∀ row ∈ codeTable, row.mask = 7 ∧ encode row.command = row.pattern := by decide

/-- The mask `0b111` keeps every bit of a code. -/
theorem and_full_mask (op : Code) : op &&& 7 = op := BitVec.and_allOnes

/-- A row of the table admits the one code that decodes to its command. -/
theorem admits_eq_of_mem_codeTable {row : CodeRow} (h : row ∈ codeTable) (op : Code) :
    row.admits op = (row.command == decodePort op) := by
  obtain ⟨hmask, hpattern⟩ := mask_and_pattern_of_mem_codeTable row h
  rw [CodeRow.admits, hmask, and_full_mask, ← hpattern, Bool.eq_iff_iff, beq_iff_eq, beq_iff_eq, eq_encode_iff]

/-- Every command has exactly one row in the table. -/
theorem filter_command_codeTable (i : Instr) :
    codeTable.filter (fun row => row.command == i) = [⟨encode i, 7, i⟩] := by
  cases i with
  | enclen => exact Laws.Encoding.enclen.2
  | declen => exact Laws.Encoding.declen.2
  | enc6 => exact Laws.Encoding.enc6.2
  | dec6 => exact Laws.Encoding.dec6.2
  | enc3 => exact Laws.Encoding.enc3.2
  | dec4 => exact Laws.Encoding.dec4.2
  | encode => exact Laws.Encoding.encode.2
  | decode => exact Laws.Encoding.decode.2

/-- The rows that admit a code: just the row of the command it decodes to. -/
theorem filter_admits_codeTable (op : Code) :
    codeTable.filter (·.admits op) = [⟨op, 7, decodePort op⟩] := by
  calc codeTable.filter (·.admits op)
      = codeTable.filter (fun row => row.command == decodePort op) :=
        List.filter_congr fun _ hrow => admits_eq_of_mem_codeTable hrow op
    _ = [⟨op, 7, decodePort op⟩] := by rw [filter_command_codeTable, encode_decodePort]

/-- Settles O1: the eight values are R48's map itself; the rows that admit a code are computed once, for every code, by
`filter_admits_codeTable`. -/
theorem everyCodeIsItsCommand : Obligations.EveryCodeIsItsCommand := by
  unfold Obligations.EveryCodeIsItsCommand
  refine ⟨rfl, rfl, rfl, rfl, rfl, rfl, rfl, rfl, mask_and_pattern_of_mem_codeTable, fun op => ?_⟩
  rw [filter_admits_codeTable, List.map_singleton]

end Sys2Proof

/-! The length functions (R60 to R62) as arithmetic, the length commands as exact next states, and the CHECK micro-step of a
block whose host waits. -/

namespace Sys2Proof.Machine

/-! ## The functions -/

/-- R60's own formula, with the branch it has for a product `4n` that 3 does not divide. -/
theorem enclen_eq_quotient_and_carry (n : Nat) : enclen n = 4 * n / 3 + (if 4 * n % 3 ≠ 0 then 1 else 0) := rfl

/-- `ENCLEN(n)` is `4n / 3` rounded up (R60); the form that `omega` works with. -/
theorem enclen_eq_ceil (n : Nat) : enclen n = (4 * n + 2) / 3 := by
  rw [enclen_eq_quotient_and_carry]
  split <;> omega

/-- `ENCLEN(n)` counts four symbols a full chunk and one symbol more than the bytes left over (R60). -/
theorem enclen_eq_chunks_and_remainder (n : Nat) :
    enclen n = 4 * (n / 3) + (if n % 3 = 0 then 0 else n % 3 + 1) := by
  rw [enclen_eq_ceil]
  split <;> omega

/-- No encoded text leaves a lone symbol (R60). -/
theorem enclen_mod_four_ne_one (n : Nat) : enclen n % 4 ≠ 1 := by
  rw [enclen_eq_ceil]
  omega

theorem enclen_mono {m n : Nat} (h : m ≤ n) : enclen m ≤ enclen n := by
  rw [enclen_eq_ceil, enclen_eq_ceil]
  omega

/-- The encoded length of any 32-bit length is a 33-bit number (R61). -/
theorem enclen_lt_of_lt {n : Nat} (h : n < 2 ^ 32) : enclen n < 2 ^ 33 := by
  rw [enclen_eq_ceil]
  omega

/-- R61's boundary: from `3 * 2^30` on an encoded length has no 32-bit form. -/
theorem le_enclen_iff (n : Nat) : 2 ^ 32 ≤ enclen n ↔ 3 * 2 ^ 30 ≤ n := by
  rw [enclen_eq_ceil]
  omega

/-- `DECLEN(m)` counts three bytes a full group, and the whole bytes of the symbols left over (R62). -/
theorem declen_eq_groups_and_remainder (m : Nat) : declen m = 3 * (m / 4) + 3 * (m % 4) / 4 := by
  rw [declen]
  omega

theorem declen_le (m : Nat) : declen m ≤ m := by
  rw [declen]
  omega

/-- `RLEN` holds a length of at most 33 bits as it is (R18, R61). -/
theorem rlenOf_toNat {k : Nat} (h : k < 2 ^ 33) : (rlenOf k).toNat = k := by
  rw [rlenOf, BitVec.toNat_ofNat, Nat.mod_eq_of_lt h]

/-! ## The commands -/

theorem exec_enclen_eq (s : State) :
    exec .enclen s = shortCommand 0 s (complete .ok (rlenOf (enclen s.inputLength)) false 0) := rfl

theorem exec_declen_eq (s : State) :
    exec .declen s = shortCommand 1 s (complete .ok (rlenOf (declen s.inputLength)) false 0) := rfl

/-- A short command that ends in `complete`, issued to an idle block, as one update of the state: the phase stays as it was. -/
theorem complete_latchCommand_of_idle {s : State} (h : s.phase = .idle) (op : Code) (st : Status) (k : LongLength) (v : Bool)
    (w : Word) :
    complete st k v w (latchCommand op s) = { s with cmd := op, status := st, rlen := k, inv := v, r := w } := by
  rw [complete, ← h]
  rfl

theorem exec_enclen_of_idle {s : State} (h : s.phase = .idle) :
    exec .enclen s = .next { s with
      cmd := 0, status := .ok, rlen := rlenOf (enclen s.inputLength), inv := false, r := 0 } := by
  rw [exec_enclen_eq, shortCommand_of s _ _ h, complete_latchCommand_of_idle h]

theorem exec_declen_of_idle {s : State} (h : s.phase = .idle) :
    exec .declen s = .next { s with
      cmd := 1, status := .ok, rlen := rlenOf (declen s.inputLength), inv := false, r := 0 } := by
  rw [exec_declen_eq, shortCommand_of s _ _ h, complete_latchCommand_of_idle h]

/-- The length that ENCLEN answers is exact, whatever `N` holds (R61). -/
theorem exec_enclen_rlen_toNat {s t : State} (h : exec .enclen s = .next t) : t.rlen.toNat = enclen s.inputLength := by
  rw [exec_enclen_eq, shortCommand_eq_next] at h
  obtain ⟨-, rfl⟩ := h
  exact rlenOf_toNat (enclen_lt_of_lt (inputLength_lt s))

/-! ## The steps of a busy block -/

/-- While its host waits, a busy block takes its micro-step (R111 to R118). -/
theorem step_eq_microStep_of_busy {s : State} (hw : HostWaits s) (hbusy : s.phase ≠ .idle) : step s = microStep s := by
  unfold step
  cases hs : s.script with
  | nil => rfl
  | cons m rest =>
    have hm : m = .wait := by simpa [HostWaits, hs] using hw
    subst hm
    exact if_neg hbusy

theorem microStep_of_check {s : State} {d : Driver} (hp : s.phase = .check) (hd : driverOf s.cmd = some d) :
    microStep s = .next (checkStep d s) := by
  rw [microStep, hp, hd]

/-- A driver whose output does not fit `CAP` completes at once with InvalidLength (R111). -/
theorem step_of_check_short {s : State} {d : Driver} (hp : s.phase = .check) (hd : driverOf s.cmd = some d)
    (hw : HostWaits s) (hshort : s.capacity < need d s.inputLength) :
    step s = .next { s with status := .invalidLength, rlen := 0, inv := false, r := 0, phase := .idle } := by
  rw [step_eq_microStep_of_busy hw (by simp [hp]), microStep_of_check hp hd, checkStep_short s d hshort]

/-- No 32-bit `CAP` offers the room that an ENCODE of `3 * 2^30` bytes or more needs (R61, R90). -/
theorem capacity_lt_need_encode {s : State} (h : 3 * 2 ^ 30 ≤ s.inputLength) :
    s.capacity < need .encode s.inputLength :=
  calc s.capacity < 2 ^ 32 := capacity_lt s
    _ ≤ enclen s.inputLength := (le_enclen_iff _).mpr h

/-! ## The obligations -/

/-- Settles O6: R60's formula is the definition, its closed forms are arithmetic, and an idle block runs ENCLEN in one step. -/
theorem enclenIsTheEncodedLength : Obligations.EnclenIsTheEncodedLength := by
  unfold Obligations.EnclenIsTheEncodedLength
  refine ⟨fun n => ⟨?_, ?_, ?_, ?_⟩, rfl, rfl, rfl, rfl, fun s h => ?_⟩
  · exact enclen_eq_quotient_and_carry n
  · exact enclen_eq_ceil n
  · exact enclen_eq_chunks_and_remainder n
  · exact enclen_mod_four_ne_one n
  · exact exec_enclen_of_idle h

/-- Settles O7: an encoded length is below `2^33`, and from `3 * 2^30` on it is above every `CAP`, so that CHECK ends the
ENCODE. -/
theorem encodedLengthFitsRlen : Obligations.EncodedLengthFitsRlen := by
  unfold Obligations.EncodedLengthFitsRlen
  refine ⟨fun n hn => ⟨?_, ?_, ?_, ?_⟩, rfl, rfl, fun s t h => ?_, fun s hp hcmd hw hn => ?_⟩
  · exact enclen_mono (by omega)
  · exact enclen_lt_of_lt hn
  · omega
  · exact le_enclen_iff n
  · exact exec_enclen_rlen_toNat h
  · exact step_of_check_short hp ((driverOf_eq_encode s).mpr hcmd) hw (capacity_lt_need_encode hn)

/-- Settles O8: the closed form and the bound are arithmetic; by the bound `RLEN` holds the result, which an idle block gives in
one step. -/
theorem declenIsTheDecodedLength : Obligations.DeclenIsTheDecodedLength := by
  unfold Obligations.DeclenIsTheDecodedLength
  refine ⟨fun m => ⟨?_, ?_, ?_, ?_⟩, rfl, rfl, rfl, rfl, rfl, fun s h => ⟨_, exec_declen_of_idle h, ?_, rfl⟩⟩
  · rfl
  · exact declen_eq_groups_and_remainder m
  · exact declen_le m
  · omega
  · have hfits : declen s.inputLength < 2 ^ 33 := by
      have hle := declen_le s.inputLength
      have hlt := inputLength_lt s
      omega
    exact rlenOf_toNat hfits

end Sys2Proof.Machine

/-! Signed values as the integers they stand for (R10), the symbol encoder as the alphabet's table at every width of 8 bits or
more (R65, R66), and the command ENC6 as an exact next state (R64). -/

namespace Sys2Proof.Machine

/-! ## Signed values -/

theorem signed_add (w : Nat) (a b : Int) : signed w (a + b) = signed w a + signed w b := BitVec.ofInt_add a b

theorem signed_sub (w : Nat) (a b : Int) : signed w (a - b) = signed w a - signed w b := by
  rw [Int.sub_eq_add_neg, signed_add, BitVec.sub_eq_add_neg, signed, signed, signed, BitVec.ofInt_neg]

theorem zext_eq_signed {v : Nat} (w : Nat) (x : BitVec v) : zext w x = signed w x.toNat := by
  rw [zext, signed, BitVec.ofInt_natCast, BitVec.ofNat_toNat]

/-- A constant that fits `m` bits and a sign stands for itself at every width above `m`. -/
theorem toInt_signed {w m : Nat} (hm : m < w) {k : Int} (hlo : -2 ^ m ≤ k) (hhi : k < 2 ^ m) :
    (signed w k).toInt = k := by
  have hpow : (2 : Int) ^ m ≤ 2 ^ (w - 1) := pow_le_pow_right₀ (by decide) (by omega)
  exact BitVec.toInt_ofInt_eq_self (by omega) (by omega) (by omega)

/-- `trunc8` keeps a signed value modulo `2^8`. -/
theorem trunc8_signed {w : Nat} (hw : 8 ≤ w) (k : Int) : trunc8 (signed w k) = BitVec.ofInt 8 k := by
  have hdvd : ((2 ^ 8 : Nat) : Int) ∣ ((2 ^ w : Nat) : Int) := Int.natCast_dvd_natCast.mpr (Nat.pow_dvd_pow 2 hw)
  have hnonneg : 0 ≤ k % ((2 ^ w : Nat) : Int) := Int.emod_nonneg _ (by simp)
  apply BitVec.eq_of_toInt_eq
  rw [trunc8, signed, BitVec.toInt_setWidth, BitVec.toNat_ofInt, Int.toNat_of_nonneg hnonneg, BitVec.toInt_ofInt,
    Int.bmod_def, Int.bmod_def, Int.emod_emod_of_dvd _ hdvd]

/-- The mask made of a sign is all ones or all zeros (R10). -/
theorem signMask_eq_ite {w : Nat} (x : BitVec w) : signMask x = if x.msb then BitVec.allOnes w else 0 := by
  ext i hi
  rw [signMask, asr, BitVec.getElem_sshiftRight]
  split
  · have hzero : i = 0 := by omega
    subst hzero
    rw [← BitVec.getLsbD_eq_getElem, Nat.add_zero, ← BitVec.msb_eq_getLsbD_last]
    cases x.msb <;> simp
  · cases x.msb <;> simp

/-! ## The function -/

/-- R65's masked offset is what its words say: the offset if the value exceeds the threshold, else 0. -/
theorem offsetAbove_signed {w : Nat} (hw : 8 ≤ w) {n t : Int} (hn : 0 ≤ n ∧ n < 64) (ht : 0 ≤ t ∧ t < 64) (o : Int) :
    offsetAbove (signed w n) t o = signed w (if t < n then o else 0) := by
  have hsign : (signed w (t - n)).msb = decide (t < n) := by
    rw [BitVec.msb_eq_toInt, toInt_signed (m := 7) (by omega) (by omega) (by omega)]
    exact decide_eq_decide.mpr sub_neg
  rw [offsetAbove, ← signed_sub, signMask_eq_ite, hsign]
  by_cases h : t < n
  · simp [h]
  · simp [h, signed]

/-- R65's offsets lead from each of the alphabet's five ranges to its characters (R66). -/
theorem add_offsets_eq_alphabetByte {n : Nat} (hn : n < 64) :
    (n : Int) + (0x41 + (if 25 < (n : Int) then 6 else 0) + (if 51 < (n : Int) then -75 else 0)
      + (if 61 < (n : Int) then -15 else 0) + (if 62 < (n : Int) then 3 else 0)) = alphabetByte n := by
  rw [alphabetByte]
  split_ifs <;> omega

/-- The symbol encoder is the alphabet's table, at every width that holds the sign of a difference of two indexes. -/
theorem enc6At_eq_alphabetByte {w : Nat} (hw : 8 ≤ w) (v : BitVec 6) :
    enc6At w v = BitVec.ofNat 8 (alphabetByte v.toNat) := by
  have hv : v.toNat < 64 := v.isLt
  have hn : 0 ≤ (v.toNat : Int) ∧ (v.toNat : Int) < 64 := by omega
  simp only [enc6At, zext_eq_signed, offsetAbove_signed hw hn, Int.reduceLE, Int.reduceLT, and_self, ← signed_add]
  rw [trunc8_signed hw, add_offsets_eq_alphabetByte hv, BitVec.ofInt_natCast]

theorem enc6_eq_alphabetByte (v : BitVec 6) : enc6 v = BitVec.ofNat 8 (alphabetByte v.toNat) :=
  enc6At_eq_alphabetByte (by decide) v

/-- The alphabet's characters are bytes. -/
theorem alphabetByte_lt (n : Nat) : alphabetByte n < 2 ^ 8 := by
  rw [alphabetByte]
  split_ifs <;> omega

/-! ## The command -/

theorem enc6Operand_toNat (a : Word) : (enc6Operand a).toNat = a.toNat % 64 := BitVec.extractLsb'_toNat 0 6 a

theorem enc6Result_ofNat {k : Nat} (h : k < 2 ^ 8) : enc6Result (BitVec.ofNat 8 k) = BitVec.ofNat 32 k := by
  rw [enc6Result, zext, ← BitVec.ofNat_toNat, BitVec.toNat_ofNat, Nat.mod_eq_of_lt h]

theorem exec_enc6_eq (s : State) :
    exec .enc6 s = shortCommand 2 s (complete .ok 0 false (enc6Result (enc6 (enc6Operand s.operandA)))) := rfl

theorem exec_enc6_of_idle {s : State} (h : s.phase = .idle) :
    exec .enc6 s = .next { s with
      cmd := 2, status := .ok, rlen := 0, inv := false, r := BitVec.ofNat 32 (alphabetByte (s.operandA.toNat % 64)) } := by
  rw [exec_enc6_eq, shortCommand_of s _ _ h, complete_latchCommand_of_idle h, enc6_eq_alphabetByte, enc6Operand_toNat,
    enc6Result_ofNat (alphabetByte_lt _)]

/-- Settles O10: the masked offsets of R65 add up to the alphabet's table, whose character an idle block gives in one step. -/
theorem enc6GivesTheCharacter : Obligations.Enc6GivesTheCharacter := by
  unfold Obligations.Enc6GivesTheCharacter
  exact ⟨fun _ h => exec_enc6_of_idle h, rfl, rfl⟩

end Sys2Proof.Machine

/-! The symbol decoder as the alphabet's inverse table at every width of 9 bits or more (R71, R72), its validity mark (R73), and
the command DEC6 as an exact next state (R70). -/

namespace Sys2Proof.Machine

/-! ## Signed values -/

/-- The sign of a difference of two bytes says which is the smaller, at every width that holds the difference. -/
theorem msb_signed_sub {w : Nat} (hw : 9 ≤ w) {x y : Int} (hx : 0 ≤ x ∧ x < 256) (hy : 0 ≤ y ∧ y < 256) :
    (signed w x - signed w y).msb = decide (x < y) := by
  rw [← signed_sub, BitVec.msb_eq_toInt, toInt_signed (m := 8) (by omega) (by omega) (by omega)]
  exact decide_eq_decide.mpr sub_neg

/-- `sext` keeps the number that a signed value stands for. -/
theorem sext_signed {v w m : Nat} (hv : m < v) (hw : v ≤ w) {k : Int} (hlo : -2 ^ m ≤ k) (hhi : k < 2 ^ m) :
    sext w (signed v k) = signed w k := by
  apply BitVec.eq_of_toInt_eq
  rw [sext, BitVec.toInt_signExtend_of_le hw, toInt_signed hv hlo hhi, toInt_signed (hv.trans_le hw) hlo hhi]

/-! ## The table -/

theorem alphabetIndex_lt {s v : Nat} (h : alphabetIndex s = some v) : v < 64 := by
  unfold alphabetIndex at h
  split_ifs at h <;> simp only [Option.some.injEq] at h <;> omega

/-- An alphabet byte decodes to its index (R72). -/
theorem decodedValue_of_inAlphabet {b : Byte} (h : inAlphabet b = true) :
    ∃ v : Nat, v < 64 ∧ decodedValue b = v := by
  obtain ⟨v, hv⟩ := Option.isSome_iff_exists.mp h
  exact ⟨v, alphabetIndex_lt hv, by rw [decodedValue, hv]⟩

theorem decodedValue_of_not_inAlphabet {b : Byte} (h : inAlphabet b = false) : decodedValue b = -1 := by
  rw [inAlphabet, Option.isSome_eq_false_iff, Option.isNone_iff_eq_none] at h
  rw [decodedValue, h]

/-- R72's table as integers; the form that `omega` works with. -/
theorem decodedValue_eq_ite (b : Byte) :
    decodedValue b =
      if 0x41 ≤ b.toNat ∧ b.toNat ≤ 0x5A then (b.toNat : Int) - 65
      else if 0x61 ≤ b.toNat ∧ b.toNat ≤ 0x7A then (b.toNat : Int) - 71
      else if 0x30 ≤ b.toNat ∧ b.toNat ≤ 0x39 then (b.toNat : Int) + 4
      else if b.toNat = 0x2B then 62
      else if b.toNat = 0x2F then 63
      else -1 := by
  rw [decodedValue, alphabetIndex]
  split_ifs <;> simp only <;> omega

/-- R72's bounds: a decoded value is a 7-bit signed number. -/
theorem decodedValue_bounds (b : Byte) : -1 ≤ decodedValue b ∧ decodedValue b < 64 := by
  rw [decodedValue_eq_ite]
  omega

/-- From bit 6 up, a decoded value is all zeros for an alphabet byte and all ones for any other (R73). -/
theorem getLsbD_signed_decodedValue {w i : Nat} (hi : 6 ≤ i) (hw : i < w) (b : Byte) :
    (signed w (decodedValue b)).getLsbD i = !(inAlphabet b) := by
  cases h : inAlphabet b with
  | true =>
    obtain ⟨v, hlt, hv⟩ := decodedValue_of_inAlphabet h
    have hpow : 2 ^ 6 ≤ 2 ^ i := Nat.pow_le_pow_right (by decide) hi
    rw [hv, signed, BitVec.ofInt_natCast, BitVec.getLsbD_ofNat, Nat.testBit_lt_two_pow (by omega), Bool.and_false]
    rfl
  | false =>
    rw [decodedValue_of_not_inAlphabet h, signed, BitVec.ofInt_neg, BitVec.ofInt_ofNat, BitVec.neg_one_eq_allOnes,
      BitVec.getLsbD_allOnes, decide_eq_true hw]
    rfl

/-! ## The function -/

/-- R71's double mask is what its words say: the offset if the byte lies strictly between the bounds, else 0. -/
theorem offsetBetween_signed {w : Nat} (hw : 9 ≤ w) {c lo hi : Int} (hc : 0 ≤ c ∧ c < 256) (hlo : 0 ≤ lo ∧ lo < 256)
    (hhi : 0 ≤ hi ∧ hi < 256) (o : Int) :
    offsetBetween (signed w c) lo hi (signed w o) = signed w (if lo < c ∧ c < hi then o else 0) := by
  rw [offsetBetween, signMask_eq_ite, BitVec.msb_and, msb_signed_sub hw hlo hc, msb_signed_sub hw hc hhi]
  by_cases h : lo < c ∧ c < hi
  · simp [h]
  · simp [h, signed]

/-- R71's offsets, one for each of the alphabet's five ranges, lead from its characters to their indexes, and from every other
byte to -1 (R72). -/
theorem add_offsets_eq_decodedValue (b : Byte) :
    -1 + (if 0x40 < (b.toNat : Int) ∧ (b.toNat : Int) < 0x5b then (b.toNat : Int) - 64 else 0)
      + (if 0x60 < (b.toNat : Int) ∧ (b.toNat : Int) < 0x7b then (b.toNat : Int) - 70 else 0)
      + (if 0x2f < (b.toNat : Int) ∧ (b.toNat : Int) < 0x3a then (b.toNat : Int) + 5 else 0)
      + (if 0x2a < (b.toNat : Int) ∧ (b.toNat : Int) < 0x2c then 63 else 0)
      + (if 0x2e < (b.toNat : Int) ∧ (b.toNat : Int) < 0x30 then 64 else 0) = decodedValue b := by
  rw [decodedValue_eq_ite]
  omega

/-- The symbol decoder is R72's table, at every width that holds the sign of a difference of two bytes. -/
theorem dec6At_eq_decodedValue {w : Nat} (hw : 9 ≤ w) (b : Byte) : dec6At w b = signed w (decodedValue b) := by
  have hb : b.toNat < 256 := b.isLt
  have hc : 0 ≤ (b.toNat : Int) ∧ (b.toNat : Int) < 256 := by omega
  simp only [dec6At, zext_eq_signed, ← signed_sub, ← signed_add, offsetBetween_signed hw hc, Int.reduceLE, Int.reduceLT,
    and_self]
  rw [add_offsets_eq_decodedValue]

theorem dec6_eq_decodedValue (b : Byte) : dec6 b = signed Config.signedWidth (decodedValue b) :=
  dec6At_eq_decodedValue (by decide) b

/-- The validity mark of a decoded symbol is up exactly for a byte outside the alphabet (R73). -/
theorem invalidMark_dec6 (b : Byte) : invalidMark (dec6 b) = !(inAlphabet b) := by
  rw [dec6_eq_decodedValue, invalidMark]
  exact getLsbD_signed_decodedValue (by decide) (by decide) b

/-! ## The command -/

theorem dec6Operand_eq_ofNat (a : Word) : dec6Operand a = BitVec.ofNat 8 a.toNat := rfl

theorem dec6Result_dec6 (b : Byte) : dec6Result (dec6 b) = BitVec.ofInt 32 (decodedValue b) := by
  obtain ⟨hlo, hhi⟩ := decodedValue_bounds b
  rw [dec6Result, dec6_eq_decodedValue]
  exact sext_signed (m := 6) (by decide) (by decide) (by omega) (by omega)

theorem exec_dec6_eq (s : State) :
    exec .dec6 s = shortCommand 3 s
      (complete .ok 0 (invalidMark (dec6 (dec6Operand s.operandA))) (dec6Result (dec6 (dec6Operand s.operandA)))) := rfl

theorem exec_dec6_of_idle {s : State} (h : s.phase = .idle) :
    exec .dec6 s = .next { s with
      cmd := 3, status := .ok, rlen := 0, inv := !(inAlphabet (BitVec.ofNat 8 s.operandA.toNat)),
      r := BitVec.ofInt 32 (decodedValue (BitVec.ofNat 8 s.operandA.toNat)) } := by
  rw [exec_dec6_eq, shortCommand_of s _ _ h, complete_latchCommand_of_idle h, invalidMark_dec6, dec6Result_dec6,
    dec6Operand_eq_ofNat]

/-- Settles O12: the double masks of R71 add up to R72's table, whose value an idle block gives in one step; that value's bit 8
is the same in `R` as at the block's own width. -/
theorem dec6GivesValueAndValidity : Obligations.Dec6GivesValueAndValidity := by
  unfold Obligations.Dec6GivesValueAndValidity
  refine ⟨fun _ h => exec_dec6_of_idle h, fun _ h => ⟨_, exec_dec6_of_idle h, ?_⟩, rfl, rfl, rfl⟩
  exact (getLsbD_signed_decodedValue (by decide) (by decide) _).symm

end Sys2Proof.Machine

/-! The triplet encoder on the operand of the command ENC3 (R51, R78), and that command as an exact next state (R77). -/

namespace Sys2Proof.Machine

/-! ## The function -/

/-- ENC3's three bytes, put together as a chunk, are `A[23:0]` again (R51, R78). -/
theorem chunkBits_enc3Operand (a : Word) : chunkBits (enc3Operand a) = a.extractLsb' 0 24 := by
  have hhigh : a.extractLsb' 16 8 ++ a.extractLsb' 8 8 = a.extractLsb' 8 16 :=
    BitVec.extractLsb'_append_extractLsb'_eq_extractLsb' rfl
  rw [chunkBits, enc3Operand, hhigh]
  exact BitVec.extractLsb'_append_extractLsb'_eq_extractLsb' rfl

/-- No 6-bit group of a chunk reaches `A[31:24]`, so each is the same group of `A` itself (R77). -/
theorem enc3_enc3Operand (a : Word) :
    enc3 (enc3Operand a) =
      ⟨enc6 (a.extractLsb' 18 6), enc6 (a.extractLsb' 12 6), enc6 (a.extractLsb' 6 6), enc6 (a.extractLsb' 0 6)⟩ := by
  have hgroup : ∀ start, start + 6 ≤ 24 →
      (chunkBits (enc3Operand a)).extractLsb' start 6 = a.extractLsb' start 6 := by
    intro start hstart
    rw [chunkBits_enc3Operand, BitVec.extractLsb'_extractLsb'_of_le hstart]
  rw [enc3, hgroup 18 (by decide), hgroup 12 (by decide), hgroup 6 (by decide), hgroup 0 (by decide)]

/-! ## The command -/

theorem exec_enc3_eq (s : State) :
    exec .enc3 s = shortCommand 4 s (complete .ok 0 false (enc3Result (enc3 (enc3Operand s.operandA)))) := rfl

theorem exec_enc3_of_idle {s : State} (h : s.phase = .idle) :
    exec .enc3 s = .next { s with
      cmd := 4, status := .ok, rlen := 0, inv := false, r := enc3Result (enc3 (enc3Operand s.operandA)) } := by
  rw [exec_enc3_eq, shortCommand_of s _ _ h, complete_latchCommand_of_idle h]

/-- Settles O16: the groups of the chunk are groups of `A[23:0]`, whose symbols an idle block gives in one step. -/
theorem enc3EncodesFourGroups : Obligations.Enc3EncodesFourGroups := by
  unfold Obligations.Enc3EncodesFourGroups
  refine ⟨fun s h => ?_, rfl, rfl⟩
  rw [exec_enc3_of_idle h, enc3_enc3Operand, enc3Result]

end Sys2Proof.Machine

/-! The quad decoder on the operand of the command DEC4 (R52, R83), and that command as an exact next state (R82). -/

namespace Sys2Proof.Machine

/-! ## The function -/

/-- DEC4's four symbols, in order, are all of `A` (R52). -/
theorem append_dec4Operand (a : Word) :
    (dec4Operand a).s0 ++ (dec4Operand a).s1 ++ (dec4Operand a).s2 ++ (dec4Operand a).s3 = a := by
  have htop : a.extractLsb' 24 8 ++ a.extractLsb' 16 8 = a.extractLsb' 16 16 :=
    BitVec.extractLsb'_append_extractLsb'_eq_extractLsb' rfl
  have hhigh : a.extractLsb' 16 16 ++ a.extractLsb' 8 8 = a.extractLsb' 8 24 :=
    BitVec.extractLsb'_append_extractLsb'_eq_extractLsb' rfl
  have hall : a.extractLsb' 8 24 ++ a.extractLsb' 0 8 = a.extractLsb' 0 32 :=
    BitVec.extractLsb'_append_extractLsb'_eq_extractLsb' rfl
  rw [dec4Operand, htop, hhigh, hall, BitVec.extractLsb'_eq_self]

/-- A value masked to its bit 0 is the number 1 exactly when that bit is up. -/
theorem getLsbD_zero_and_one {w : Nat} (hw : 0 < w) (x : BitVec w) :
    (x &&& BitVec.ofNat w 1).getLsbD 0 = (x &&& BitVec.ofNat w 1 == BitVec.ofNat w 1) := by
  rw [BitVec.and_one_eq_setWidth_ofBool_getLsbD]
  cases x.getLsbD 0 with
  | false => simp [hw.ne']
  | true => simp [hw, BitVec.setWidth_ofNat_one_eq_ofNat_one_of_lt]

/-- R83's signal, the one bit that the mask leaves, read as a number. -/
theorem quadInvalid_eq_beq_one {w : Nat} (hw : 0 < w) (c0 c1 c2 c3 : BitVec w) :
    quadInvalid c0 c1 c2 c3 =
      ((c0 ||| c1 ||| c2 ||| c3).sshiftRight 8 &&& BitVec.ofNat w 1 == BitVec.ofNat w 1) :=
  getLsbD_zero_and_one hw _

/-- The quad decoder by R83's formulas: `trunc8` and `asr` are the bit vector's own, and the signal is a number. -/
theorem dec4_eq (q : Quad) :
    dec4 q =
      { bytes :=
          ⟨((dec6 q.s0 <<< 2) ||| (dec6 q.s1).sshiftRight 4).setWidth 8,
           ((dec6 q.s1 <<< 4) ||| (dec6 q.s2).sshiftRight 2).setWidth 8,
           ((dec6 q.s2 <<< 6) ||| dec6 q.s3).setWidth 8⟩
        invalid := ((dec6 q.s0 ||| dec6 q.s1 ||| dec6 q.s2 ||| dec6 q.s3).sshiftRight 8 &&& 1) == 1 } :=
  congrArg (Decoded.mk _) (quadInvalid_eq_beq_one (by decide) _ _ _ _)

/-! ## The command -/

/-- DEC4's result, byte by byte: 0 in `R[31:24]`, then the three bytes (R82). -/
theorem dec4Result_eq_append (t : Triple) : dec4Result t = (0 : Byte) ++ t.b0 ++ t.b1 ++ t.b2 := by
  rw [dec4Result, chunkBits, zext, BitVec.setWidth_append, dif_neg (by decide), BitVec.setWidth_append,
    dif_neg (by decide), BitVec.setWidth_eq_append (by decide)]
  rfl

theorem exec_dec4_eq (s : State) :
    exec .dec4 s = shortCommand 5 s
      (complete .ok 0 (dec4 (dec4Operand s.operandA)).invalid (dec4Result (dec4 (dec4Operand s.operandA)).bytes)) := rfl

theorem exec_dec4_of_idle {s : State} (h : s.phase = .idle) :
    exec .dec4 s = .next { s with
      cmd := 5, status := .ok, rlen := 0, inv := (dec4 (dec4Operand s.operandA)).invalid,
      r := dec4Result (dec4 (dec4Operand s.operandA)).bytes } := by
  rw [exec_dec4_eq, shortCommand_of s _ _ h, complete_latchCommand_of_idle h]

/-- Settles O19: an idle block gives the decoded quad in one step, whose symbols are the bytes of `A` and whose bytes and signal
are R83's formulas. -/
theorem dec4GivesBytesAndSignal : Obligations.Dec4GivesBytesAndSignal := by
  unfold Obligations.Dec4GivesBytesAndSignal
  refine ⟨fun s h => ?_, fun a => ⟨append_dec4Operand a, dec4_eq _⟩, rfl, rfl⟩
  rw [exec_dec4_of_idle h, dec4Result_eq_append]

end Sys2Proof.Machine

/-! The micro-steps of a driver whose host waits, phase by phase (R111 to R118), and the whole run of ENCODE (R93): by induction
along the input as `encodeText` takes it apart, a chunk at a time. -/

namespace Sys2Proof.Machine

/-! ## The encoded text -/

/-- R72's table inverts R66's: the 64 indexes are checked one by one. -/
theorem alphabetIndex_alphabetByte : ∀ n < 64, alphabetIndex (alphabetByte n) = some n := by decide

theorem inAlphabet_enc6 (v : BitVec 6) : inAlphabet (enc6 v) = true := by
  rw [enc6_eq_alphabetByte, inAlphabet, BitVec.toNat_ofNat, Nat.mod_eq_of_lt (alphabetByte_lt _),
    alphabetIndex_alphabetByte _ v.isLt, Option.isSome_some]

/-- The alphabet's characters are ASCII. -/
theorem toNat_lt_of_inAlphabet {b : Byte} (h : inAlphabet b = true) : b.toNat < 0x80 := by
  obtain ⟨v, hv⟩ := Option.isSome_iff_exists.mp h
  unfold alphabetIndex at hv
  split_ifs at hv <;> omega

theorem inAlphabet_of_mem_quadBytes_enc3 {t : Triple} {b : Byte} (h : b ∈ quadBytes (enc3 t)) : inAlphabet b = true := by
  simp only [quadBytes, enc3, List.mem_cons, List.not_mem_nil, or_false] at h
  obtain rfl | rfl | rfl | rfl := h <;> exact inAlphabet_enc6 _

theorem inAlphabet_of_mem_encodeText {input : List Byte} {b : Byte} (h : b ∈ encodeText input) : inAlphabet b = true := by
  induction input using encodeText.induct with
  | case1 b0 b1 b2 rest ih =>
    rw [encodeText, List.mem_append] at h
    exact h.elim inAlphabet_of_mem_quadBytes_enc3 ih
  | case2 b0 b1 => exact inAlphabet_of_mem_quadBytes_enc3 (List.mem_of_mem_take h)
  | case3 b0 => exact inAlphabet_of_mem_quadBytes_enc3 (List.mem_of_mem_take h)
  | case4 => cases h

@[simp] theorem length_quadBytes (q : Quad) : (quadBytes q).length = 4 := rfl

theorem enclen_add_three (n : Nat) : enclen (n + 3) = 4 + enclen n := by
  rw [enclen_eq_ceil, enclen_eq_ceil]
  omega

theorem enclen_one : enclen 1 = 2 := rfl

theorem enclen_two : enclen 2 = 3 := rfl

/-- R60's length is that of the text of R91 and R92. -/
theorem length_encodeText (input : List Byte) : (encodeText input).length = enclen input.length := by
  induction input using encodeText.induct with
  | case1 b0 b1 b2 rest ih =>
    rw [encodeText, List.length_append, length_quadBytes, ih]
    exact (enclen_add_three rest.length).symm
  | case2 b0 b1 => exact enclen_two.symm
  | case3 b0 => exact enclen_one.symm
  | case4 => rfl

/-! ## The steps of a driver, by phase -/

section
variable {s t : State} {d : Driver}

/-- A driver with room for its output starts on its chunks (R111). -/
theorem step_of_check_room (hp : s.phase = .check) (hd : driverOf s.cmd = some d) (hw : HostWaits s)
    (hroom : need d s.inputLength ≤ s.capacity) :
    step s = .next { s with idx := 0, err := false, phase := .full } := by
  rw [step_eq_microStep_of_busy hw (by simp [hp]), microStep_of_check hp hd, checkStep_room s d hroom]

theorem step_of_encode_chunk (hp : s.phase = .full) (hd : driverOf s.cmd = some .encode) (hw : HostWaits s)
    (hidx : s.idx.toNat < fullChunks .encode s.inputLength) (h : encodeChunk s = .ok t) : step s = .next t := by
  have hbusy : s.phase ≠ .idle := by simp [hp]
  rw [step_eq_microStep_of_busy hw hbusy, microStep_eq_next s t hbusy]
  exact ⟨.encode, hd, .inr (.inl ⟨hp, hidx, rfl, h⟩)⟩

/-- After the last full chunk only the phase moves on (R114). -/
theorem step_of_full_end (hp : s.phase = .full) (hd : driverOf s.cmd = some d) (hw : HostWaits s)
    (hidx : s.idx.toNat = fullChunks d s.inputLength) : step s = .next { s with phase := .rem } := by
  have hbusy : s.phase ≠ .idle := by simp [hp]
  rw [step_eq_microStep_of_busy hw hbusy, microStep_eq_next s _ hbusy]
  exact ⟨d, hd, .inr (.inr (.inr (.inl ⟨hp, hidx, rfl⟩)))⟩

theorem step_of_encode_remainder (hp : s.phase = .rem) (hd : driverOf s.cmd = some .encode) (hw : HostWaits s)
    (h : encodeRemainder s = .ok t) : step s = .next t := by
  have hbusy : s.phase ≠ .idle := by simp [hp]
  rw [step_eq_microStep_of_busy hw hbusy, microStep_eq_next s t hbusy]
  exact ⟨.encode, hd, .inr (.inr (.inr (.inr (.inl ⟨hp, rfl, h⟩))))⟩

theorem step_of_fin (hp : s.phase = .fin) (hd : driverOf s.cmd = some d) (hw : HostWaits s) :
    step s = .next (finStep d s) := by
  have hbusy : s.phase ≠ .idle := by simp [hp]
  rw [step_eq_microStep_of_busy hw hbusy, microStep_eq_next s _ hbusy]
  exact ⟨d, hd, .inr (.inr (.inr (.inr (.inr (.inr ⟨hp, rfl⟩)))))⟩

end

/-! ## The run of ENCODE -/

/-- An ENCODE past its length check whose input from `SRC[3 * IDX]` on is `rest`: what is left to encode, in FULL and in REM. -/
structure Encoding (s : State) (rest : List Byte) : Prop where
  driver : driverOf s.cmd = some .encode
  waits : HostWaits s
  length : 3 * s.idx.toNat + rest.length = s.inputLength
  holds : ∀ j (h : j < rest.length), memRead s.src (3 * s.idx.toNat + j) = some rest[j]
  input_fits : s.inputLength ≤ s.srcSize
  output_fits : enclen s.inputLength ≤ s.dstSize

section
variable {s : State} {rest : List Byte}

theorem Encoding.readSrc_eq (h : Encoding s rest) {j : Nat} (hj : j < rest.length) :
    readSrc s (3 * s.idx.toNat + j) = .ok rest[j] := by
  have hlen := h.length
  have hfits := h.input_fits
  exact readSrc_of s _ _ (by omega) (h.holds j hj)

/-- With less than a chunk left, `IDX` has reached the number of full chunks (R114). -/
theorem Encoding.idx_of_short (h : Encoding s rest) (hshort : rest.length < 3) : s.idx.toNat = s.inputLength / 3 := by
  have hlen := h.length
  omega

/-- The symbols of what is left fit `DST` from `4 * IDX` on. -/
theorem Encoding.room (h : Encoding s rest) : 4 * s.idx.toNat + enclen rest.length ≤ s.dstSize := by
  have hlen := h.length
  have hfits := h.output_fits
  rw [enclen_eq_ceil] at hfits ⊢
  omega

/-- The state after one chunk of ENCODE (R112). -/
def afterChunk (s : State) (t : Triple) : State :=
  { s with dst := memWriteAll s.dst (4 * s.idx.toNat) (quadBytes (enc3 t)), idx := s.idx + 1 }

variable {b0 b1 b2 : Byte}

/-- `IDX` does not wrap: it counts chunks of a 32-bit length. -/
theorem Encoding.idx_afterChunk (h : Encoding s (b0 :: b1 :: b2 :: rest)) :
    (afterChunk s ⟨b0, b1, b2⟩).idx.toNat = s.idx.toNat + 1 := by
  have hlen := h.length
  have hlt := inputLength_lt s
  rw [List.length_cons] at hlen
  have hfits : s.idx.toNat + 1 < 2 ^ 32 := by omega
  exact BitVec.toNat_add_of_lt hfits

/-- A FULL step encodes the first chunk of what is left (R112). -/
theorem Encoding.step_chunk (h : Encoding s (b0 :: b1 :: b2 :: rest)) (hp : s.phase = .full) :
    step s = .next (afterChunk s ⟨b0, b1, b2⟩) := by
  have hlen := h.length
  have hroom := h.room
  have hcons : (b0 :: b1 :: b2 :: rest).length = rest.length + 3 := rfl
  rw [hcons] at hlen
  rw [hcons, enclen_add_three] at hroom
  have hchunk : encodeChunk s = .ok (afterChunk s ⟨b0, b1, b2⟩) :=
    (encodeChunk_eq_ok s _).mpr ⟨b0, b1, b2, h.readSrc_eq (j := 0) (by simp), h.readSrc_eq (j := 1) (by simp),
      h.readSrc_eq (j := 2) (by simp), by omega, rfl⟩
  exact step_of_encode_chunk hp h.driver h.waits (by rw [fullChunks_encode]; omega) hchunk

/-- After a chunk, the rest of the input is left. -/
theorem Encoding.encoding_afterChunk (h : Encoding s (b0 :: b1 :: b2 :: rest)) :
    Encoding (afterChunk s ⟨b0, b1, b2⟩) rest where
  driver := h.driver
  waits := h.waits
  length := by
    rw [h.idx_afterChunk, Nat.mul_add, Nat.add_assoc, Nat.add_comm 3]
    exact h.length
  holds j hj := by
    rw [h.idx_afterChunk, Nat.mul_add, Nat.add_assoc, Nat.add_comm 3]
    exact h.holds (j + 3) (Nat.add_lt_add_right hj 3)
  input_fits := h.input_fits
  output_fits := h.output_fits

/-- The remainder of ENCODE is the end of the text: what is left, zero-padded, of whose symbols the leading ones are kept
(R92, R115). -/
theorem Encoding.encodeRemainder_eq (h : Encoding s rest) (hshort : rest.length < 3) :
    encodeRemainder s = .ok { s with dst := memWriteAll s.dst (4 * s.idx.toNat) (encodeText rest), phase := .fin } := by
  have hidx := h.idx_of_short hshort
  have hlen := h.length
  have hroom := h.room
  rw [encodeRemainder_eq_ok, ← hidx]
  match rest, hshort with
  | [], _ =>
    rw [List.length_nil] at hlen
    exact .inl ⟨by omega, rfl⟩
  | [b0], _ =>
    rw [List.length_singleton] at hlen hroom
    rw [enclen_one] at hroom
    have hrem : s.inputLength % 3 = 1 := by omega
    rw [hrem]
    exact .inr ⟨by decide, b0, 0x00, h.readSrc_eq (j := 0) (by simp), rfl, hroom, rfl⟩
  | [b0, b1], _ =>
    rw [List.length_cons, List.length_singleton] at hlen hroom
    rw [enclen_two] at hroom
    have hrem : s.inputLength % 3 = 2 := by omega
    rw [hrem]
    exact .inr ⟨by decide, b0, b1, h.readSrc_eq (j := 0) (by simp), h.readSrc_eq (j := 1) (by simp), hroom, rfl⟩

/-- The state in which an ENCODE that is at `s`, with `rest` left, ends: `complete(OK, need, 0, 0)` with the rest of the text
written (R117). -/
def encodeEnd (s : State) (rest : List Byte) : State :=
  complete .ok (rlenOf (enclen s.inputLength)) false 0 { s with
    idx := BitVec.ofNat 32 (s.inputLength / 3), dst := memWriteAll s.dst (4 * s.idx.toNat) (encodeText rest) }

/-- Writing a chunk's symbols and then those of the rest is writing the text of both. -/
theorem Encoding.encodeEnd_afterChunk (h : Encoding s (b0 :: b1 :: b2 :: rest)) :
    encodeEnd (afterChunk s ⟨b0, b1, b2⟩) rest = encodeEnd s (b0 :: b1 :: b2 :: rest) := by
  rw [encodeEnd, h.idx_afterChunk, encodeEnd, encodeText, memWriteAll_append]
  rfl

/-- With less than a chunk left, ENCODE ends in three steps: the end of FULL, REM and FIN (R114, R115, R117). -/
theorem Encoding.run_of_short (h : Encoding s rest) (hp : s.phase = .full) (hshort : rest.length < 3) :
    runSteps (rest.length / 3 + 3) s = .next (encodeEnd s rest) := by
  have hidx := h.idx_of_short hshort
  have hleft : Encoding { s with phase := .rem } rest :=
    ⟨h.driver, h.waits, h.length, h.holds, h.input_fits, h.output_fits⟩
  have hfull : step s = .next { s with phase := .rem } := step_of_full_end hp h.driver h.waits hidx
  have hrem : step { s with phase := .rem } =
      .next { s with dst := memWriteAll s.dst (4 * s.idx.toNat) (encodeText rest), phase := .fin } :=
    step_of_encode_remainder rfl h.driver h.waits (hleft.encodeRemainder_eq hshort)
  have hfin : step { s with dst := memWriteAll s.dst (4 * s.idx.toNat) (encodeText rest), phase := .fin } =
      .next (encodeEnd s rest) := by
    rw [encodeEnd, ← hidx, BitVec.ofNat_toNat, BitVec.setWidth_eq]
    exact step_of_fin (d := .encode) rfl h.driver h.waits
  rw [Nat.div_eq_of_lt hshort, runSteps_succ _ _ _ hfull, runSteps_succ _ _ _ hrem, runSteps_succ _ _ _ hfin,
    runSteps_zero]

/-- ENCODE takes one step for each full chunk left and three to end, and writes the text of what is left. -/
theorem Encoding.run (h : Encoding s rest) (hp : s.phase = .full) :
    runSteps (rest.length / 3 + 3) s = .next (encodeEnd s rest) := by
  induction rest using encodeText.induct generalizing s with
  | case1 b0 b1 b2 rest ih =>
    have hcount : (b0 :: b1 :: b2 :: rest).length / 3 + 3 = (rest.length / 3 + 3) + 1 := by
      simp only [List.length_cons]
      omega
    rw [hcount, runSteps_succ _ _ _ (h.step_chunk hp), ih h.encoding_afterChunk hp, h.encodeEnd_afterChunk]
  | case2 b0 b1 => exact h.run_of_short hp (by simp)
  | case3 b0 => exact h.run_of_short hp (by simp)
  | case4 => exact h.run_of_short hp (by simp)

end

/-! ## The command -/

theorem exec_encode_eq (s : State) : exec .encode s = driverCommand 6 s := rfl

theorem exec_encode_of_idle {s : State} (h : s.phase = .idle) (hn : s.inputLength ≤ s.srcSize)
    (hc : s.capacity ≤ s.dstSize) : exec .encode s = .next { latchCommand 6 s with phase := .check } := by
  rw [exec_encode_eq, driverCommand_of s 6 h hn hc]

/-- The state of an ENCODE just past its length check (R111). -/
def encodeStart (s : State) : State := { s with cmd := 6, idx := 0, err := false, phase := .full }

/-- Past the length check, the whole input is left to encode. -/
theorem Ready.encoding {s : State} {input : List Byte} (h : Ready s input) (hroom : enclen s.inputLength ≤ s.capacity) :
    Encoding (encodeStart s) input where
  driver := rfl
  waits := h.waits
  length := (Nat.zero_add _).trans h.length
  holds j hj := (congrArg (memRead s.src) (Nat.zero_add j)).trans (h.holds j hj)
  input_fits := h.input_fits
  output_fits := hroom.trans h.offer_fits

/-- ENCODE with room, once issued: its length check, then its whole input. -/
theorem Ready.encode_run {s : State} {input : List Byte} (h : Ready s input) (hroom : enclen s.inputLength ≤ s.capacity) :
    runSteps (s.inputLength / 3 + 4) { latchCommand 6 s with phase := .check } =
      .next (encodeEnd (encodeStart s) input) := by
  have hcheck : step { latchCommand 6 s with phase := .check } = .next (encodeStart s) :=
    step_of_check_room (d := .encode) rfl rfl h.waits hroom
  rw [runSteps_succ _ _ _ hcheck, ← h.length]
  exact (h.encoding hroom).run rfl

/-- Settles O41: the run is `Encoding.run` after the length check, by induction along the input; the length and the alphabet are
those of the encoded text. -/
theorem encodeRunsToCompletion : Obligations.EncodeRunsToCompletion := by
  unfold Obligations.EncodeRunsToCompletion
  intro s input h hroom
  refine ⟨⟨_, exec_encode_of_idle h.idle h.input_fits h.offer_fits, ?_⟩, ?_, fun b hb => ?_⟩
  · rw [h.encode_run hroom, encodeEnd, complete, ← h.idle]
    rfl
  · rw [length_encodeText, h.length]
  · have hin := inAlphabet_of_mem_encodeText hb
    exact ⟨hin, toNat_lt_of_inAlphabet hin⟩

end Sys2Proof.Machine

/-! The micro-steps of a driver whose host waits, as exact next states (R111 to R118), each from the step lemma of its phase and
what its chunk or its remainder comes to. -/

namespace Sys2Proof.Machine

/-! ## The steps of DECODE, by phase -/

section
variable {s t : State} {d : Driver}

theorem step_of_decode_group (hp : s.phase = .full) (hd : driverOf s.cmd = some .decode) (hw : HostWaits s)
    (hidx : s.idx.toNat < fullChunks .decode s.inputLength) (h : decodeGroup s = .ok t) : step s = .next t := by
  have hbusy : s.phase ≠ .idle := by simp [hp]
  rw [step_eq_microStep_of_busy hw hbusy, microStep_eq_next s t hbusy]
  exact ⟨.decode, hd, .inr (.inr (.inl ⟨hp, hidx, rfl, h⟩))⟩

theorem step_of_decode_remainder (hp : s.phase = .rem) (hd : driverOf s.cmd = some .decode) (hw : HostWaits s)
    (h : decodeRemainder s = .ok t) : step s = .next t := by
  have hbusy : s.phase ≠ .idle := by simp [hp]
  rw [step_eq_microStep_of_busy hw hbusy, microStep_eq_next s t hbusy]
  exact ⟨.decode, hd, .inr (.inr (.inr (.inr (.inr (.inl ⟨hp, rfl, h⟩)))))⟩

/-- A group of padding alone raises no signal (R102). -/
theorem dec4_fillers_valid :
    (dec4 ⟨Config.filler, Config.filler, Config.filler, Config.filler⟩).invalid = false := rfl

/-! ## The iteration index -/

theorem fullChunks_le (d : Driver) (n : Nat) : fullChunks d n ≤ n := by
  cases d with
  | encode => exact Nat.div_le_self n 3
  | decode => exact Nat.div_le_self n 4

/-- `IDX` does not wrap while chunks are left: it counts the chunks of a 32-bit length (R24). -/
theorem toNat_idx_add_one (h : s.idx.toNat < fullChunks d s.inputLength) : (s.idx + 1).toNat = s.idx.toNat + 1 := by
  have hle := fullChunks_le d s.inputLength
  have hlt := inputLength_lt s
  have hfits : s.idx.toNat + 1 < 2 ^ 32 := by omega
  exact BitVec.toNat_add_of_lt hfits

/-! ## The end of a driver -/

theorem finStep_encode (s : State) :
    finStep .encode s = complete .ok (rlenOf (enclen s.inputLength)) false 0 s := rfl

/-- An invalid symbol seen ends a DECODE in InvalidEncoding, with nothing to show for it (R118). -/
theorem finStep_decode_invalid (h : s.err = true) : finStep .decode s = complete .invalidEncoding 0 true 0 s := by
  rw [finStep, decodeFinish, h]
  rfl

theorem finStep_decode_valid (h : s.err = false) :
    finStep .decode s = complete .ok (rlenOf (declen s.inputLength)) false 0 s := by
  rw [finStep, decodeFinish, h]
  rfl

end

/-! ## The obligations -/

/-- Settles O29: the three reads and the write are inside the memories, so the chunk is carried out. -/
theorem encodeFullStepEncodesOneChunk : Obligations.EncodeFullStepEncodesOneChunk := by
  unfold Obligations.EncodeFullStepEncodesOneChunk
  intro s b0 b1 b2 hp hcmd hw hidx hsrc hdst h0 h1 h2
  have hchunk := (encodeChunk_eq_ok s _).mpr ⟨b0, b1, b2, readSrc_of s _ _ (by omega) h0, readSrc_of s _ _ (by omega) h1,
    readSrc_of s _ _ (by omega) h2, hdst, rfl⟩
  exact ⟨step_of_encode_chunk hp ((driverOf_eq_encode s).mpr hcmd) hw hidx hchunk, toNat_idx_add_one (d := .encode) hidx⟩

/-- Settles O30: the four reads and the write are inside the memories, so the group is carried out, valid or not. -/
theorem decodeFullStepDecodesOneGroup : Obligations.DecodeFullStepDecodesOneGroup := by
  unfold Obligations.DecodeFullStepDecodesOneGroup
  intro s s0 s1 s2 s3 hp hcmd hw hidx hsrc hdst h0 h1 h2 h3
  have hgroup := (decodeGroup_eq_ok s _).mpr ⟨s0, s1, s2, s3, readSrc_of s _ _ (by omega) h0,
    readSrc_of s _ _ (by omega) h1, readSrc_of s _ _ (by omega) h2, readSrc_of s _ _ (by omega) h3, hdst, rfl⟩
  exact ⟨step_of_decode_group hp ((driverOf_eq_decode s).mpr hcmd) hw hidx hgroup, toNat_idx_add_one (d := .decode) hidx⟩

/-- Settles O32: with no remainder the step only moves on; otherwise its bytes lie inside the input and its symbols inside the
encoded length, `rem + 1` past those of the full chunks. -/
theorem encodeRemainderPadsWithZeros : Obligations.EncodeRemainderPadsWithZeros := by
  unfold Obligations.EncodeRemainderPadsWithZeros
  intro s hp hcmd hw
  have hstep : ∀ t, _ → step s = .next t := fun t h =>
    step_of_encode_remainder hp ((driverOf_eq_encode s).mpr hcmd) hw ((encodeRemainder_eq_ok s t).mpr h)
  refine ⟨fun hrem => ?_, fun b0 hrem hsrc hdst h0 => ?_, fun b0 b1 hrem hsrc hdst h0 h1 => ?_⟩
  · exact hstep _ (.inl ⟨hrem, rfl⟩)
  · rw [enclen_eq_ceil] at hdst
    rw [hrem] at hstep
    exact hstep _ (.inr ⟨by decide, b0, 0x00, readSrc_of s _ _ (by omega) h0, rfl, by omega, rfl⟩)
  · rw [enclen_eq_ceil] at hdst
    rw [hrem] at hstep
    exact hstep _ (.inr ⟨by decide, b0, b1, readSrc_of s _ _ (by omega) h0, readSrc_of s _ _ (by omega) h1, by omega, rfl⟩)

/-- Settles O33: the symbols left lie inside the input and the bytes kept inside the decoded length. The padding alone is valid, so
no remainder leaves `ERR` as it was; a lone symbol keeps no byte. -/
theorem decodeRemainderPadsWithFillers : Obligations.DecodeRemainderPadsWithFillers := by
  unfold Obligations.DecodeRemainderPadsWithFillers
  intro s hp hcmd hw hsrc hdst
  rw [declen_eq_groups_and_remainder] at hdst
  have hstep : ∀ t, _ → step s = .next t := fun t h =>
    step_of_decode_remainder hp ((driverOf_eq_decode s).mpr hcmd) hw ((decodeRemainderWith_eq_ok s t Config.filler).mpr h)
  refine ⟨fun hrem => ?_, fun s0 hrem h0 => ?_, fun s0 s1 hrem h0 h1 => ?_, fun s0 s1 s2 hrem h0 h1 h2 => ?_⟩ <;>
    rw [hrem] at hdst hstep
  · refine hstep _ ⟨Config.filler, Config.filler, Config.filler, rfl, rfl, rfl, hdst, ?_⟩
    rw [dec4_fillers_valid, Bool.or_false]
    simp
  · refine hstep _ ⟨s0, Config.filler, Config.filler, readSrc_of s _ _ (by omega) h0, rfl, rfl, hdst, ?_⟩
    simp
  · refine hstep _ ⟨s0, s1, Config.filler, readSrc_of s _ _ (by omega) h0, readSrc_of s _ _ (by omega) h1, rfl, hdst, ?_⟩
    simp [tripleBytes]
  · refine hstep _ ⟨s0, s1, s2, readSrc_of s _ _ (by omega) h0, readSrc_of s _ _ (by omega) h1, readSrc_of s _ _ (by omega) h2,
      hdst, ?_⟩
    simp [tripleBytes]

/-- Settles O28: the length check of each driver, short of room and with room. -/
theorem checkComparesCapacityWithNeed : Obligations.CheckComparesCapacityWithNeed := by
  unfold Obligations.CheckComparesCapacityWithNeed
  intro s hp hw
  refine ⟨fun hcmd h => ?_, fun hcmd h => ?_, fun hcmd h => ?_, fun hcmd h => ?_⟩
  · exact step_of_check_short hp ((driverOf_eq_encode s).mpr hcmd) hw h
  · exact step_of_check_short hp ((driverOf_eq_decode s).mpr hcmd) hw h
  · exact step_of_check_room hp ((driverOf_eq_encode s).mpr hcmd) hw h
  · exact step_of_check_room hp ((driverOf_eq_decode s).mpr hcmd) hw h

/-- Settles O31: the end of the full chunks of each driver. -/
theorem endOfFullChunksOnlyMovesOn : Obligations.EndOfFullChunksOnlyMovesOn := by
  unfold Obligations.EndOfFullChunksOnlyMovesOn
  intro s hp hw
  exact ⟨fun hcmd h => step_of_full_end hp ((driverOf_eq_encode s).mpr hcmd) hw h,
    fun hcmd h => step_of_full_end hp ((driverOf_eq_decode s).mpr hcmd) hw h⟩

/-- Settles O34: the end of ENCODE, and that of DECODE for each value of `ERR`. -/
theorem finishChoosesTheStatus : Obligations.FinishChoosesTheStatus := by
  unfold Obligations.FinishChoosesTheStatus
  intro s hp hw
  refine ⟨fun hcmd => ?_, fun hcmd herr => ?_, fun hcmd herr => ?_⟩
  · rw [step_of_fin hp ((driverOf_eq_encode s).mpr hcmd) hw, finStep_encode]
    rfl
  · rw [step_of_fin hp ((driverOf_eq_decode s).mpr hcmd) hw, finStep_decode_invalid herr]
    rfl
  · rw [step_of_fin hp ((driverOf_eq_decode s).mpr hcmd) hw, finStep_decode_valid herr]
    rfl

end Sys2Proof.Machine

/-! The course of a driver (R119, R120): which phase each micro-step leads to, that a driver whose input is written always has a
next one, and how many are left. -/

namespace Sys2Proof.Machine

/-! ## What a micro-step does to the sequencing state -/

/-- The course of the driver `d` from `s` to `t`, by the transition taken: what becomes of `PHASE`, `IDX` and, in ENCODE,
`ERR` (R111 to R118). -/
inductive Course (d : Driver) (s t : State) : Prop where
  | short (hp : s.phase = .check) (hshort : s.capacity < need d s.inputLength) (hp' : t.phase = .idle)
  | start (hp : s.phase = .check) (hroom : need d s.inputLength ≤ s.capacity) (hp' : t.phase = .full)
      (hidx' : t.idx = 0) (herr' : t.err = false)
  | chunk (hp : s.phase = .full) (hidx : s.idx.toNat < fullChunks d s.inputLength) (hp' : t.phase = .full)
      (hidx' : t.idx = s.idx + 1) (herr' : d = .encode → t.err = s.err)
  | chunksEnd (hp : s.phase = .full) (hidx : s.idx.toNat = fullChunks d s.inputLength) (hp' : t.phase = .rem)
      (hidx' : t.idx = s.idx) (herr' : d = .encode → t.err = s.err)
  | remainder (hp : s.phase = .rem) (hp' : t.phase = .fin) (hidx' : t.idx = s.idx) (herr' : d = .encode → t.err = s.err)
  | finish (hp : s.phase = .fin) (hp' : t.phase = .idle)

section
variable {s t : State} {d : Driver}

theorem finStep_phase (d : Driver) (s : State) : (finStep d s).phase = .idle := by
  cases d <;> rfl

/-- Every micro-step of a driver follows its course and leaves `CMD` alone. -/
theorem course_of_microStep (hbusy : s.phase ≠ .idle) (hd : driverOf s.cmd = some d) (h : microStep s = .next t) :
    Course d s t ∧ t.cmd = s.cmd := by
  obtain ⟨d', hd', h⟩ := (microStep_eq_next s t hbusy).mp h
  obtain rfl : d = d' := Option.some.inj (hd.symm.trans hd')
  rcases h with ⟨hp, rfl⟩ | ⟨hp, hidx, rfl, h⟩ | ⟨hp, hidx, rfl, h⟩ | ⟨hp, hidx, rfl⟩ | ⟨hp, rfl, h⟩ | ⟨hp, rfl, h⟩ |
    ⟨hp, rfl⟩
  · rcases Nat.lt_or_ge s.capacity (need d s.inputLength) with hshort | hroom
    · rw [checkStep_short s d hshort]
      exact ⟨.short hp hshort rfl, rfl⟩
    · rw [checkStep_room s d hroom]
      exact ⟨.start hp hroom rfl rfl rfl, rfl⟩
  · obtain ⟨_, _, _, _, _, _, _, rfl⟩ := (encodeChunk_eq_ok s t).mp h
    exact ⟨.chunk hp hidx hp rfl fun _ => rfl, rfl⟩
  · obtain ⟨_, _, _, _, _, _, _, _, _, rfl⟩ := (decodeGroup_eq_ok s t).mp h
    exact ⟨.chunk hp hidx hp rfl nofun, rfl⟩
  · exact ⟨.chunksEnd hp hidx rfl rfl fun _ => rfl, rfl⟩
  · rcases (encodeRemainder_eq_ok s t).mp h with ⟨_, rfl⟩ | ⟨_, _, _, _, _, _, rfl⟩ <;>
      exact ⟨.remainder hp rfl rfl fun _ => rfl, rfl⟩
  · obtain ⟨_, _, _, _, _, _, _, rfl⟩ := (decodeRemainderWith_eq_ok s t _).mp h
    exact ⟨.remainder hp rfl rfl nofun, rfl⟩
  · exact ⟨.finish hp (finStep_phase d s), by cases d <;> rfl⟩

/-- A micro-step keeps the driver's invariant, unless it ends the command. -/
theorem DriverInv.of_microStep (h : DriverInv d s) (hd : driverOf s.cmd = some d) (hbusy : s.phase ≠ .idle)
    (hm : microStep s = .next t) (hbusy' : t.phase ≠ .idle) : DriverInv d t := by
  obtain ⟨-, hn, hcap, hsrc, hdst, -, -⟩ := microStep_keeps s t hbusy hm
  have hinput : t.inputLength ≤ t.srcSize := by rw [hn, hsrc]; exact h.input_fits
  have hoffer : t.capacity ≤ t.dstSize := by rw [hcap, hdst]; exact h.offer_fits
  have hroom : s.phase ≠ .check → need d t.inputLength ≤ t.capacity := by rw [hn, hcap]; exact h.room
  cases (course_of_microStep hbusy hd hm).1 with
  | short _ _ hp' => exact absurd hp' hbusy'
  | start _ hroom' hp' hidx' herr' =>
    exact ⟨hinput, hoffer, fun _ => by rwa [hn, hcap], fun _ => by simp [hidx'], fun hp => by simp [hp'] at hp,
      fun _ _ => herr'⟩
  | chunk hp hidx hp' hidx' herr' =>
    have hcheck : s.phase ≠ .check := by simp [hp]
    have hrange : t.idx.toNat ≤ fullChunks d t.inputLength := by rwa [hn, hidx', toNat_idx_add_one hidx]
    exact ⟨hinput, hoffer, fun _ => hroom hcheck, fun _ => hrange, fun hp => by simp [hp'] at hp,
      fun he _ => (herr' he).trans (h.no_error_in_encode he hcheck)⟩
  | chunksEnd hp hidx hp' hidx' herr' =>
    have hcheck : s.phase ≠ .check := by simp [hp]
    have hend : t.idx.toNat = fullChunks d t.inputLength := by rwa [hn, hidx']
    exact ⟨hinput, hoffer, fun _ => hroom hcheck, fun _ => hend.le, fun _ => hend,
      fun he _ => (herr' he).trans (h.no_error_in_encode he hcheck)⟩
  | remainder hp hp' hidx' herr' =>
    have hcheck : s.phase ≠ .check := by simp [hp]
    have hend : t.idx.toNat = fullChunks d t.inputLength := by rw [hn, hidx']; exact h.at_end (.inl hp)
    exact ⟨hinput, hoffer, fun _ => hroom hcheck, fun _ => hend.le, fun _ => hend,
      fun he _ => (herr' he).trans (h.no_error_in_encode he hcheck)⟩
  | finish _ hp' => exact absurd hp' hbusy'

/-! ## A driver whose input is written has a next micro-step -/

theorem exists_readSrc_eq_ok (hfits : s.inputLength ≤ s.srcSize) (hw : SourceWritten s) {i : Nat}
    (hi : i < s.inputLength) : ∃ b, readSrc s i = .ok b := by
  obtain ⟨b, hb⟩ := Option.isSome_iff_exists.mp (hw i hi)
  exact ⟨b, readSrc_of s i b (by omega) hb⟩

/-- A padded position needs no byte of the input. -/
theorem exists_readSrcOr_eq_ok (hfits : s.inputLength ≤ s.srcSize) (hw : SourceWritten s) {real : Bool} {i : Nat}
    (hi : real = true → i < s.inputLength) (padding : Byte) : ∃ b, readSrcOr real s i padding = .ok b := by
  cases real with
  | true => exact exists_readSrc_eq_ok hfits hw (hi rfl)
  | false => exact ⟨padding, rfl⟩

theorem exists_encodeChunk_eq_ok (hfits : s.inputLength ≤ s.srcSize) (hw : SourceWritten s)
    (hroom : enclen s.inputLength ≤ s.dstSize) (hidx : s.idx.toNat < s.inputLength / 3) : ∃ t, encodeChunk s = .ok t := by
  rw [enclen_eq_ceil] at hroom
  obtain ⟨b0, h0⟩ := exists_readSrc_eq_ok hfits hw (i := 3 * s.idx.toNat) (by omega)
  obtain ⟨b1, h1⟩ := exists_readSrc_eq_ok hfits hw (i := 3 * s.idx.toNat + 1) (by omega)
  obtain ⟨b2, h2⟩ := exists_readSrc_eq_ok hfits hw (i := 3 * s.idx.toNat + 2) (by omega)
  exact ⟨_, (encodeChunk_eq_ok s _).mpr ⟨b0, b1, b2, h0, h1, h2, by omega, rfl⟩⟩

theorem exists_decodeGroup_eq_ok (hfits : s.inputLength ≤ s.srcSize) (hw : SourceWritten s)
    (hroom : declen s.inputLength ≤ s.dstSize) (hidx : s.idx.toNat < s.inputLength / 4) : ∃ t, decodeGroup s = .ok t := by
  rw [declen] at hroom
  obtain ⟨s0, h0⟩ := exists_readSrc_eq_ok hfits hw (i := 4 * s.idx.toNat) (by omega)
  obtain ⟨s1, h1⟩ := exists_readSrc_eq_ok hfits hw (i := 4 * s.idx.toNat + 1) (by omega)
  obtain ⟨s2, h2⟩ := exists_readSrc_eq_ok hfits hw (i := 4 * s.idx.toNat + 2) (by omega)
  obtain ⟨s3, h3⟩ := exists_readSrc_eq_ok hfits hw (i := 4 * s.idx.toNat + 3) (by omega)
  exact ⟨_, (decodeGroup_eq_ok s _).mpr ⟨s0, s1, s2, s3, h0, h1, h2, h3, by omega, rfl⟩⟩

theorem exists_encodeRemainder_eq_ok (hfits : s.inputLength ≤ s.srcSize) (hw : SourceWritten s)
    (hroom : enclen s.inputLength ≤ s.dstSize) : ∃ t, encodeRemainder s = .ok t := by
  by_cases hrem : s.inputLength % 3 = 0
  · exact ⟨_, (encodeRemainder_eq_ok s _).mpr (.inl ⟨hrem, rfl⟩)⟩
  · rw [enclen_eq_ceil] at hroom
    obtain ⟨t0, h0⟩ := exists_readSrc_eq_ok hfits hw (i := 3 * (s.inputLength / 3)) (by omega)
    obtain ⟨t1, h1⟩ := exists_readSrcOr_eq_ok hfits hw (real := s.inputLength % 3 == 2)
      (i := 3 * (s.inputLength / 3) + 1) (by rw [beq_iff_eq]; omega) 0x00
    exact ⟨_, (encodeRemainder_eq_ok s _).mpr (.inr ⟨hrem, t0, t1, h0, h1, by omega, rfl⟩)⟩

theorem exists_decodeRemainder_eq_ok (hfits : s.inputLength ≤ s.srcSize) (hw : SourceWritten s)
    (hroom : declen s.inputLength ≤ s.dstSize) : ∃ t, decodeRemainder s = .ok t := by
  rw [declen_eq_groups_and_remainder] at hroom
  obtain ⟨t0, h0⟩ := exists_readSrcOr_eq_ok hfits hw (real := 1 ≤ s.inputLength % 4)
    (i := 4 * (s.inputLength / 4)) (by rw [decide_eq_true_iff]; omega) Config.filler
  obtain ⟨t1, h1⟩ := exists_readSrcOr_eq_ok hfits hw (real := 2 ≤ s.inputLength % 4)
    (i := 4 * (s.inputLength / 4) + 1) (by rw [decide_eq_true_iff]; omega) Config.filler
  obtain ⟨t2, h2⟩ := exists_readSrcOr_eq_ok hfits hw (real := s.inputLength % 4 == 3)
    (i := 4 * (s.inputLength / 4) + 2) (by rw [beq_iff_eq]; omega) Config.filler
  exact ⟨_, (decodeRemainderWith_eq_ok s _ Config.filler).mpr ⟨t0, t1, t2, h0, h1, h2, hroom, rfl⟩⟩

/-- A driver in progress that nothing stops: the host waits, and the input has been written (R142). -/
structure InProgress (d : Driver) (s : State) : Prop where
  busy : s.phase ≠ .idle
  driver : driverOf s.cmd = some d
  waits : HostWaits s
  written : SourceWritten s
  inv : DriverInv d s

theorem InProgress.exists_step (h : InProgress d s) : ∃ t, step s = .next t := by
  obtain ⟨hbusy, hd, hw, hwritten, hinv⟩ := h
  have hroom : s.phase ≠ .check → need d s.inputLength ≤ s.dstSize := fun hp => (hinv.room hp).trans hinv.offer_fits
  cases hp : s.phase with
  | idle => exact absurd hp hbusy
  | check => exact ⟨_, by rw [step_eq_microStep_of_busy hw hbusy, microStep_of_check hp hd]⟩
  | full =>
    have hroom := hroom (by simp [hp])
    rcases (hinv.in_range hp).lt_or_eq with hidx | hidx
    · cases d with
      | encode =>
        obtain ⟨t, ht⟩ := exists_encodeChunk_eq_ok hinv.input_fits hwritten hroom hidx
        exact ⟨t, step_of_encode_chunk hp hd hw hidx ht⟩
      | decode =>
        obtain ⟨t, ht⟩ := exists_decodeGroup_eq_ok hinv.input_fits hwritten hroom hidx
        exact ⟨t, step_of_decode_group hp hd hw hidx ht⟩
    · exact ⟨_, step_of_full_end hp hd hw hidx⟩
  | rem =>
    have hroom := hroom (by simp [hp])
    cases d with
    | encode =>
      obtain ⟨t, ht⟩ := exists_encodeRemainder_eq_ok hinv.input_fits hwritten hroom
      exact ⟨t, step_of_encode_remainder hp hd hw ht⟩
    | decode =>
      obtain ⟨t, ht⟩ := exists_decodeRemainder_eq_ok hinv.input_fits hwritten hroom
      exact ⟨t, step_of_decode_remainder hp hd hw ht⟩
  | fin => exact ⟨_, step_of_fin hp hd hw⟩

/-- A step keeps the driver in progress, unless it ends the command. -/
theorem InProgress.of_step (h : InProgress d s) (hs : step s = .next t) (hbusy' : t.phase ≠ .idle) : InProgress d t := by
  rw [step_eq_microStep_of_busy h.waits h.busy] at hs
  obtain ⟨hsrc, hn, -, -, -, hscript, -⟩ := microStep_keeps s t h.busy hs
  refine ⟨hbusy', ?_, hostWaits_of_script s t hscript h.waits, ?_, h.inv.of_microStep h.driver h.busy hs hbusy'⟩
  · rw [(course_of_microStep h.busy h.driver hs).2]
    exact h.driver
  · rw [SourceWritten, hsrc, hn]
    exact h.written

/-! ## The number of micro-steps -/

/-- The micro-steps that the driver `d` has left (R120): 1 when the length check is to fail, else one for each full chunk left
and one for each transition to the end. -/
def stepsLeft (d : Driver) (s : State) : Nat :=
  match s.phase with
  | .idle => 0
  | .check => if s.capacity < need d s.inputLength then 1 else fullChunks d s.inputLength + 4
  | .full => fullChunks d s.inputLength - s.idx.toNat + 3
  | .rem => 2
  | .fin => 1

theorem stepsLeft_of_idle (hp : s.phase = .idle) : stepsLeft d s = 0 := by
  rw [stepsLeft, hp]

theorem stepsLeft_of_check_short (hp : s.phase = .check) (h : s.capacity < need d s.inputLength) : stepsLeft d s = 1 := by
  rw [stepsLeft, hp]
  exact if_pos h

theorem stepsLeft_of_check_room (hp : s.phase = .check) (h : need d s.inputLength ≤ s.capacity) :
    stepsLeft d s = fullChunks d s.inputLength + 4 := by
  rw [stepsLeft, hp]
  exact if_neg (Nat.not_lt.mpr h)

theorem stepsLeft_of_full (hp : s.phase = .full) : stepsLeft d s = fullChunks d s.inputLength - s.idx.toNat + 3 := by
  rw [stepsLeft, hp]

theorem stepsLeft_of_rem (hp : s.phase = .rem) : stepsLeft d s = 2 := by
  rw [stepsLeft, hp]

theorem stepsLeft_of_fin (hp : s.phase = .fin) : stepsLeft d s = 1 := by
  rw [stepsLeft, hp]

/-- A busy driver has a micro-step left. -/
theorem stepsLeft_pos (hbusy : s.phase ≠ .idle) : 0 < stepsLeft d s := by
  unfold stepsLeft
  cases hp : s.phase with
  | idle => exact absurd hp hbusy
  | check =>
    simp only
    split <;> omega
  | full => exact Nat.succ_pos _
  | rem => exact Nat.succ_pos _
  | fin => exact Nat.succ_pos _

theorem idle_of_stepsLeft_eq_zero (h : stepsLeft d s = 0) : s.phase = .idle := by
  by_contra hbusy
  exact (stepsLeft_pos hbusy).ne' h

/-- Along its course a driver uses up one of the micro-steps it has left. -/
theorem Course.stepsLeft_eq (hc : Course d s t) (hn : t.inputLength = s.inputLength) :
    stepsLeft d s = stepsLeft d t + 1 := by
  cases hc with
  | short hp hshort hp' => rw [stepsLeft_of_check_short hp hshort, stepsLeft_of_idle hp']
  | start hp hroom hp' hidx' _ =>
    rw [stepsLeft_of_check_room hp hroom, stepsLeft_of_full hp', hn, hidx']
    rfl
  | chunk hp hidx hp' hidx' _ =>
    rw [stepsLeft_of_full hp, stepsLeft_of_full hp', hn, hidx', toNat_idx_add_one hidx]
    omega
  | chunksEnd hp hidx hp' _ _ => rw [stepsLeft_of_full hp, stepsLeft_of_rem hp', hidx, Nat.sub_self]
  | remainder hp hp' _ _ => rw [stepsLeft_of_rem hp, stepsLeft_of_fin hp']
  | finish hp hp' => rw [stepsLeft_of_fin hp, stepsLeft_of_idle hp']

theorem InProgress.stepsLeft_eq (h : InProgress d s) (hs : step s = .next t) : stepsLeft d s = stepsLeft d t + 1 := by
  rw [step_eq_microStep_of_busy h.waits h.busy] at hs
  obtain ⟨-, hn, -⟩ := microStep_keeps s t h.busy hs
  exact (course_of_microStep h.busy h.driver hs).1.stepsLeft_eq hn

/-- After fewer steps than it has left a driver is in progress still, with the others left. -/
theorem InProgress.exists_run (h : InProgress d s) {k : Nat} (hk : k < stepsLeft d s) :
    ∃ t, runSteps k s = .next t ∧ InProgress d t ∧ stepsLeft d s = stepsLeft d t + k := by
  induction k generalizing s with
  | zero => exact ⟨s, rfl, h, rfl⟩
  | succ k ih =>
    obtain ⟨u, hu⟩ := h.exists_step
    have hleft := h.stepsLeft_eq hu
    have hk' : k < stepsLeft d u := by omega
    have hbusy : u.phase ≠ .idle := fun hp => by simp [stepsLeft_of_idle hp] at hk'
    obtain ⟨t, hrun, ht, hleft'⟩ := ih (h.of_step hu hbusy) hk'
    exact ⟨t, by rw [runSteps_succ s u k hu, hrun], ht, by omega⟩

/-- After all the steps it has left the driver's command is complete. -/
theorem InProgress.exists_run_to_idle (h : InProgress d s) :
    ∃ t, runSteps (stepsLeft d s) s = .next t ∧ t.phase = .idle := by
  have hpos : 0 < stepsLeft d s := stepsLeft_pos h.busy
  obtain ⟨u, hrun, hu, hleft⟩ := h.exists_run (Nat.sub_one_lt hpos.ne')
  obtain ⟨t, ht⟩ := hu.exists_step
  have hlast := hu.stepsLeft_eq ht
  refine ⟨t, ?_, idle_of_stepsLeft_eq_zero (d := d) (by omega)⟩
  rw [← Nat.sub_one_add_one hpos.ne', runSteps_add s u _ 1 hrun, runSteps_succ u t 0 ht, runSteps_zero]

/-! ## The command -/

theorem driverOf_encode_driverCommandOf (d : Driver) : driverOf (encode (driverCommandOf d)) = some d := by
  cases d <;> rfl

/-- The state of a driver just issued (R109). -/
def issuedDriver (d : Driver) (s : State) : State := { s with cmd := encode (driverCommandOf d), phase := .check }

theorem exec_driverCommandOf_of_idle (h : s.phase = .idle) (hn : s.inputLength ≤ s.srcSize) (hc : s.capacity ≤ s.dstSize) :
    exec (driverCommandOf d) s = .next (issuedDriver d s) := by
  cases d with
  | encode => exact driverCommand_of s 6 h hn hc
  | decode => exact driverCommand_of s 7 h hn hc

/-- A driver issued to a ready state is in progress, before its length check. -/
theorem Ready.inProgress_issuedDriver {input : List Byte} (h : Ready s input) : InProgress d (issuedDriver d s) where
  busy := nofun
  driver := driverOf_encode_driverCommandOf d
  waits := h.waits
  written i hi := Option.isSome_of_eq_some (h.holds i (h.length ▸ hi))
  inv :=
    { input_fits := h.input_fits
      offer_fits := h.offer_fits
      room := fun hp => absurd rfl hp
      in_range := nofun
      at_end := fun hp => by simp [issuedDriver] at hp
      no_error_in_encode := fun _ hp => absurd rfl hp }

end

/-- Settles O47: a driver just issued has 1 or `full + 4` micro-steps left by its length check, is busy while any is left, and
is idle when none is. -/
theorem stepCountIsFullPlusFour : Obligations.StepCountIsFullPlusFour := by
  unfold Obligations.StepCountIsFullPlusFour
  intro d s input h
  have hrun : InProgress d (issuedDriver d s) := h.inProgress_issuedDriver
  refine ⟨_, exec_driverCommandOf_of_idle h.idle h.input_fits h.offer_fits, hrun.busy, fun hshort => ?_, fun hroom => ?_⟩
  · have hleft : stepsLeft d (issuedDriver d s) = 1 := stepsLeft_of_check_short rfl hshort
    exact hleft ▸ hrun.exists_run_to_idle
  · have hleft : stepsLeft d (issuedDriver d s) = fullChunks d s.inputLength + 4 := stepsLeft_of_check_room rfl hroom
    rw [← hleft]
    refine ⟨fun k hk => ?_, hrun.exists_run_to_idle⟩
    obtain ⟨t, ht, hprog, -⟩ := hrun.exists_run hk
    exact ⟨t, ht, hprog.busy⟩

end Sys2Proof.Machine

/-! Where InvalidLength comes from (R123): the length check of a driver, and no other micro-step and no short command. -/

namespace Sys2Proof.Machine

/-! ## Steps that end a command with another status -/

section
variable {s t : State} {d : Driver}

/-- FIN is past the length check: it ends a driver in OK or in InvalidEncoding (R117, R118). -/
theorem finStep_status_ne_invalidLength (d : Driver) (s : State) : (finStep d s).status ≠ .invalidLength := by
  cases d with
  | encode => simp [finStep_encode]
  | decode =>
    cases herr : s.err with
    | true => simp [finStep_decode_invalid herr]
    | false => simp [finStep_decode_valid herr]

/-- Past its length check a driver completes in FIN only. -/
theorem Course.eq_fin_of_completes (h : Course d s t) (hcheck : s.phase ≠ .check) (hidle : t.phase = .idle) :
    s.phase = .fin := by
  cases h with
  | short hp | start hp => exact absurd hp hcheck
  | chunk _ _ hp' | chunksEnd _ _ hp' | remainder _ hp' => simp [hp'] at hidle
  | finish hp => exact hp

/-- A short command is one completion with status OK (R110). -/
theorem exec_of_isShort {i : Instr} (h : isShort i = true) (s : State) :
    ∃ k v r, exec i s = shortCommand (encode i) s (complete .ok k v r) := by
  cases i with
  | enclen => exact ⟨_, _, _, exec_enclen_eq s⟩
  | declen => exact ⟨_, _, _, exec_declen_eq s⟩
  | enc6 => exact ⟨_, _, _, exec_enc6_eq s⟩
  | dec6 => exact ⟨_, _, _, exec_dec6_eq s⟩
  | enc3 => exact ⟨_, _, _, exec_enc3_eq s⟩
  | dec4 => exact ⟨_, _, _, exec_dec4_eq s⟩
  | encode | decode => simp [isShort] at h

/-! ## The first micro-step of a driver -/

/-- A driver issued with too small a `CAP` is complete after one micro-step, with nothing but its code and its results written. -/
theorem step_issuedDriver_short (h : s.phase = .idle) (hw : HostWaits s) (hshort : s.capacity < need d s.inputLength) :
    step (issuedDriver d s) = .next { s with
      cmd := encode (driverCommandOf d), status := .invalidLength, rlen := 0, inv := false, r := 0 } := by
  rw [step_of_check_short (s := issuedDriver d s) rfl (driverOf_encode_driverCommandOf d) hw hshort, issuedDriver, h]

theorem step_issuedDriver_room (hw : HostWaits s) (hroom : need d s.inputLength ≤ s.capacity) :
    step (issuedDriver d s) = .next { issuedDriver d s with idx := 0, err := false, phase := .full } :=
  step_of_check_room rfl (driverOf_encode_driverCommandOf d) hw hroom

end

/-- Settles O44: the check of a driver just issued decides by `CAP` alone; a later step that completes is the one of FIN, and a
short command completes with OK. -/
theorem shortCapacityEndsInInvalidLength : Obligations.ShortCapacityEndsInInvalidLength := by
  unfold Obligations.ShortCapacityEndsInInvalidLength
  refine ⟨fun d s hp hw hn hc => ?_, fun d s t hd hbusy hcheck hw hs hidle => ?_, fun i s t hi ht => ?_⟩
  · exact ⟨_, exec_driverCommandOf_of_idle hp hn hc, step_issuedDriver_short hp hw,
      fun hroom => ⟨_, step_issuedDriver_room hw hroom, rfl⟩⟩
  · have hm : microStep s = .next t := step_eq_microStep_of_busy hw hbusy ▸ hs
    have hfin : s.phase = .fin := (course_of_microStep hbusy hd hm).1.eq_fin_of_completes hcheck hidle
    rw [step_of_fin hfin hd hw] at hs
    cases hs
    exact finStep_status_ne_invalidLength d s
  · obtain ⟨k, v, r, hexec⟩ := exec_of_isShort hi s
    rw [hexec, shortCommand_eq_next] at ht
    obtain ⟨-, rfl⟩ := ht
    rfl

end Sys2Proof.Machine

/-! The symbol encoder and the symbol decoder as inverses of each other (R66, R72), and the validity mark (R73). -/

namespace Sys2Proof.Machine

/-! ## Indexes and symbols -/

/-- R66's table inverts R72's. -/
theorem alphabetByte_of_alphabetIndex {s v : Nat} (h : alphabetIndex s = some v) : alphabetByte v = s := by
  unfold alphabetIndex at h
  unfold alphabetByte
  split_ifs at h <;> rw [Option.some.injEq] at h <;> subst h <;> split_ifs <;> omega

theorem decodedValue_enc6 (v : BitVec 6) : decodedValue (enc6 v) = v.toNat := by
  rw [decodedValue, enc6_eq_alphabetByte, BitVec.toNat_ofNat, Nat.mod_eq_of_lt (alphabetByte_lt _),
    alphabetIndex_alphabetByte _ v.isLt]

/-- A symbol decodes to the index it was made of. -/
theorem dec6_enc6 (v : BitVec 6) : dec6 (enc6 v) = zext Config.signedWidth v := by
  rw [dec6_eq_decodedValue, decodedValue_enc6, zext_eq_signed]

theorem toNat_dec6_enc6 (v : BitVec 6) : (dec6 (enc6 v)).toNat = v.toNat := by
  rw [dec6_enc6, zext, BitVec.toNat_setWidth_of_le (by decide)]

theorem enc6_injective {v w : BitVec 6} (h : enc6 v = enc6 w) : v = w := by
  apply BitVec.eq_of_toNat_eq
  rw [← toNat_dec6_enc6, h, toNat_dec6_enc6]

/-- The alphabet is the image of the symbol encoder (R66). -/
theorem inAlphabet_iff (b : Byte) : inAlphabet b = true ↔ ∃ v, enc6 v = b := by
  constructor
  · intro h
    obtain ⟨v, hv⟩ := Option.isSome_iff_exists.mp h
    refine ⟨BitVec.ofNat 6 v, ?_⟩
    rw [enc6_eq_alphabetByte, BitVec.toNat_ofNat, Nat.mod_eq_of_lt (alphabetIndex_lt hv), alphabetByte_of_alphabetIndex hv,
      BitVec.ofNat_toNat, BitVec.setWidth_eq]
  · rintro ⟨v, rfl⟩
    exact inAlphabet_enc6 v

/-- A decoded value, at every width that holds its sign, is the number that R72's table gives. -/
theorem toInt_dec6At {w : Nat} (hw : 9 ≤ w) (b : Byte) : (dec6At w b).toInt = decodedValue b := by
  obtain ⟨hlo, hhi⟩ := decodedValue_bounds b
  rw [dec6At_eq_decodedValue hw]
  exact toInt_signed (m := 6) (by omega) (by omega) (by omega)

theorem toInt_dec6 (b : Byte) : (dec6 b).toInt = decodedValue b := toInt_dec6At (by decide) b

/-! ## The obligations -/

/-- Settles O11: the encoder is the table by its masked offsets, and the decoder, which undoes it, makes it injective. -/
theorem symbolEncoderIsTheAlphabet : Obligations.SymbolEncoderIsTheAlphabet := by
  unfold Obligations.SymbolEncoderIsTheAlphabet
  refine ⟨fun v => ?_, fun _ _ => enc6_injective, inAlphabet_iff⟩
  rw [enc6_eq_alphabetByte, BitVec.toNat_ofNat, Nat.mod_eq_of_lt (alphabetByte_lt _)]

/-- Settles O13: the decoder is the table by its double masks; 0 to 63 are the values of the 64 symbols, and -1 that of `=`. -/
theorem symbolDecoderIsTheTable : Obligations.SymbolDecoderIsTheTable := by
  unfold Obligations.SymbolDecoderIsTheTable
  refine ⟨toInt_dec6, fun k => ⟨?_, ?_⟩, toNat_dec6_enc6, fun b hb => ?_⟩
  · rintro ⟨b, rfl⟩
    obtain ⟨hlo, hhi⟩ := decodedValue_bounds b
    rw [toInt_dec6]
    omega
  · rintro (rfl | ⟨hlo, hhi⟩)
    · exact ⟨0x3D, rfl⟩
    · refine ⟨enc6 (BitVec.ofNat 6 k.toNat), ?_⟩
      rw [toInt_dec6, decodedValue_enc6, BitVec.toNat_ofNat]
      omega
  · obtain ⟨v, rfl⟩ := (inAlphabet_iff b).mp hb
    rw [toNat_dec6_enc6, BitVec.ofNat_toNat, BitVec.setWidth_eq]

/-- Settles O14: every bit of a decoded value from bit 6 up is the mark. -/
theorem validityIsBitEight : Obligations.ValidityIsBitEight := by
  unfold Obligations.ValidityIsBitEight
  intro b
  have hmark : ∀ i, 6 ≤ i → i < 16 → (dec6 b).getLsbD i = !(inAlphabet b) := fun i hi hw => by
    rw [dec6_eq_decodedValue]
    exact getLsbD_signed_decodedValue hi hw b
  refine ⟨hmark 8 (by decide) (by decide), fun hb i hi => ?_, fun hb i hi => ?_⟩
  · rcases Nat.lt_or_ge i 16 with hw | hw
    · rw [hmark i hi hw, hb]
      rfl
    · exact BitVec.getLsbD_of_ge _ _ hw
  · rcases Nat.lt_or_ge i 6 with hlow | hhigh
    · rw [dec6_eq_decodedValue, decodedValue_of_not_inAlphabet hb, signed, BitVec.ofInt_neg, BitVec.ofInt_ofNat,
        BitVec.neg_one_eq_allOnes, BitVec.getLsbD_allOnes, decide_eq_true hi]
    · rw [hmark i hhigh hi, hb]
      rfl

end Sys2Proof.Machine

/-! The quad decoder and the triplet encoder as inverses of each other (R78 to R87), through the 24 bits of a chunk: a quad of
alphabet bytes is the quad of the four groups of 24 bits, and decodes to those bits. -/

namespace Sys2Proof.Machine

/-! ## The signal -/

/-- R83's signal is up exactly when a mark is, at every width that has a bit 8. -/
theorem quadInvalid_eq_marks {w : Nat} (hw : 9 ≤ w) (c0 c1 c2 c3 : BitVec w) :
    quadInvalid c0 c1 c2 c3 = (invalidMark c0 || invalidMark c1 || invalidMark c2 || invalidMark c3) := by
  have hbit : 8 + 0 < w := by omega
  rw [quadInvalid, BitVec.getLsbD_and, asr, BitVec.getLsbD_sshiftRight, if_pos hbit]
  simp [invalidMark, show 0 < w by omega, show ¬ w = 0 by omega]

theorem invalidMark_dec6At {w : Nat} (hw : 9 ≤ w) (b : Byte) : invalidMark (dec6At w b) = !(inAlphabet b) := by
  rw [dec6At_eq_decodedValue hw]
  exact getLsbD_signed_decodedValue (by decide) hw b

/-- The signal of a quad is up exactly when not all of it is in the alphabet (R85). -/
theorem dec4At_invalid {w : Nat} (hw : 9 ≤ w) (q : Quad) : (dec4At w q).invalid = !(quadInAlphabet q) := by
  rw [dec4At, quadInvalid_eq_marks hw, invalidMark_dec6At hw, invalidMark_dec6At hw, invalidMark_dec6At hw,
    invalidMark_dec6At hw, quadInAlphabet, Bool.not_and, Bool.not_and, Bool.not_and]

theorem dec4_invalid (q : Quad) : (dec4 q).invalid = !(quadInAlphabet q) := dec4At_invalid (by decide) q

/-! ## The bytes at every width -/

theorem trunc8_or {w : Nat} (x y : BitVec w) : trunc8 (x ||| y) = trunc8 x ||| trunc8 y := BitVec.setWidth_or

theorem trunc8_shiftLeft {w : Nat} (hw : 8 ≤ w) (x : BitVec w) (k : Nat) : trunc8 (x <<< k) = trunc8 x <<< k :=
  BitVec.setWidth_shiftLeft_of_le hw

/-- A decoded value shifted right and truncated to a byte is the same at every width that holds the value's sign. -/
theorem trunc8_asr_decodedValue {w : Nat} (hw : 8 ≤ w) (b : Byte) (k : Nat) :
    trunc8 (asr (signed w (decodedValue b)) k) = BitVec.ofInt 8 (decodedValue b >>> k) := by
  obtain ⟨hlo, hhi⟩ := decodedValue_bounds b
  rw [asr, BitVec.sshiftRight_eq, toInt_signed (m := 6) (by omega) (by omega) (by omega)]
  exact trunc8_signed hw _

/-- R83's bytes by the values of R72's table, in 8 bits: no bit of them depends on the width. -/
theorem dec4At_bytes {w : Nat} (hw : 9 ≤ w) (q : Quad) :
    (dec4At w q).bytes =
      ⟨BitVec.ofInt 8 (decodedValue q.s0) <<< 2 ||| BitVec.ofInt 8 (decodedValue q.s1 >>> (4 : Nat)),
       BitVec.ofInt 8 (decodedValue q.s1) <<< 4 ||| BitVec.ofInt 8 (decodedValue q.s2 >>> (2 : Nat)),
       BitVec.ofInt 8 (decodedValue q.s2) <<< 6 ||| BitVec.ofInt 8 (decodedValue q.s3)⟩ := by
  have hw8 : 8 ≤ w := by omega
  simp only [dec4At, dec6At_eq_decodedValue hw, trunc8_or, trunc8_shiftLeft hw8, trunc8_asr_decodedValue hw8,
    trunc8_signed hw8]

/-- The quad decoder is the same at every width that holds the sign of a difference of two bytes. -/
theorem dec4At_eq_dec4 {w : Nat} (hw : 9 ≤ w) (q : Quad) : dec4At w q = dec4 q := by
  have hbytes : (dec4At w q).bytes = (dec4 q).bytes := (dec4At_bytes hw q).trans (dec4At_bytes (by decide) q).symm
  have hsignal : (dec4At w q).invalid = (dec4 q).invalid := (dec4At_invalid hw q).trans (dec4_invalid q).symm
  exact congrArg₂ Decoded.mk hbytes hsignal

/-! ## The bytes of four symbols -/

/-- The quad of the four 6-bit groups of 24 bits, first group first (R78). -/
def quadOfBits (g : BitVec 24) : Quad :=
  ⟨enc6 (g.extractLsb' 18 6), enc6 (g.extractLsb' 12 6), enc6 (g.extractLsb' 6 6), enc6 (g.extractLsb' 0 6)⟩

theorem enc3_eq_quadOfBits (t : Triple) : enc3 t = quadOfBits (chunkBits t) := rfl

theorem append_groups (g : BitVec 24) :
    g.extractLsb' 18 6 ++ g.extractLsb' 12 6 ++ g.extractLsb' 6 6 ++ g.extractLsb' 0 6 = g := by
  have h12 : g.extractLsb' 18 6 ++ g.extractLsb' 12 6 = g.extractLsb' 12 12 :=
    BitVec.extractLsb'_append_extractLsb'_eq_extractLsb' rfl
  have h6 : g.extractLsb' 12 12 ++ g.extractLsb' 6 6 = g.extractLsb' 6 18 :=
    BitVec.extractLsb'_append_extractLsb'_eq_extractLsb' rfl
  rw [h12, h6]
  exact BitVec.extractLsb'_append_extractLsb'

theorem quadOfBits_append (v0 v1 v2 v3 : BitVec 6) :
    quadOfBits (v0 ++ v1 ++ v2 ++ v3) = ⟨enc6 v0, enc6 v1, enc6 v2, enc6 v3⟩ := by
  have h6 : (v0 ++ v1 ++ v2 ++ v3).extractLsb' 6 6 = v2 := by
    rw [BitVec.extractLsb'_append_eq_of_le (by decide)]
    exact BitVec.extractLsb'_append_eq_right
  have h12 : (v0 ++ v1 ++ v2 ++ v3).extractLsb' 12 6 = v1 := by
    rw [BitVec.extractLsb'_append_eq_of_le (by decide), BitVec.extractLsb'_append_eq_of_le (by decide)]
    exact BitVec.extractLsb'_append_eq_right
  have h18 : (v0 ++ v1 ++ v2 ++ v3).extractLsb' 18 6 = v0 := by
    rw [BitVec.extractLsb'_append_eq_of_le (by decide), BitVec.extractLsb'_append_eq_of_le (by decide)]
    exact BitVec.extractLsb'_append_eq_left
  rw [quadOfBits, h6, h12, h18, BitVec.extractLsb'_append_eq_right]

/-- The quads of alphabet bytes are the quads of 24 bits. -/
theorem quadInAlphabet_iff (q : Quad) : quadInAlphabet q = true ↔ ∃ g, quadOfBits g = q := by
  rw [quadInAlphabet, Bool.and_eq_true, Bool.and_eq_true, Bool.and_eq_true, inAlphabet_iff, inAlphabet_iff,
    inAlphabet_iff, inAlphabet_iff]
  constructor
  · rintro ⟨⟨⟨⟨v0, h0⟩, ⟨v1, h1⟩⟩, ⟨v2, h2⟩⟩, ⟨v3, h3⟩⟩
    exact ⟨v0 ++ v1 ++ v2 ++ v3, by rw [quadOfBits_append, h0, h1, h2, h3]⟩
  · rintro ⟨g, rfl⟩
    exact ⟨⟨⟨⟨_, rfl⟩, ⟨_, rfl⟩⟩, ⟨_, rfl⟩⟩, ⟨_, rfl⟩⟩

/-- Two neighbouring groups, the upper one shifted left by `k` and the lower one right by `6 - k`, leave in the low 8 bits the 8
bits from the `6 - k` lowest of the lower group's bits up. -/
theorem trunc8_neighbours (g : BitVec 24) {n k : Nat} (hk : 2 ≤ k ∧ k ≤ 6) :
    trunc8 ((zext Config.signedWidth (g.extractLsb' (n + 6) 6) <<< k)
      ||| asr (zext Config.signedWidth (g.extractLsb' n 6)) (6 - k)) = g.extractLsb' (n + 6 - k) 8 := by
  ext i hi
  have hbit : 6 - k + i < Config.signedWidth := Nat.lt_of_le_of_lt (by omega : 6 - k + i ≤ 11) (by decide)
  rw [trunc8, BitVec.getElem_setWidth, BitVec.getLsbD_or, BitVec.getLsbD_shiftLeft, asr, BitVec.getLsbD_sshiftRight,
    if_pos hbit, zext, zext, BitVec.getLsbD_setWidth, BitVec.getLsbD_setWidth, BitVec.getLsbD_extractLsb',
    BitVec.getLsbD_extractLsb', BitVec.getElem_extractLsb']
  by_cases hlow : i < k
  · have hpos : n + (6 - k + i) = n + 6 - k + i := by omega
    simp [hlow, hpos, show i < 16 by omega, show 6 - k + i < 16 by omega, show 6 - k + i < 6 by omega]
  · have hpos : n + 6 + (i - k) = n + 6 - k + i := by omega
    simp [hlow, hpos, show i < 16 by omega, show i - k < 16 by omega, show i - k < 6 by omega,
      show ¬ 6 - k + i < 6 by omega]

theorem quadOfBits_bytes (g : BitVec 24) :
    (dec4 (quadOfBits g)).bytes = ⟨g.extractLsb' 16 8, g.extractLsb' 8 8, g.extractLsb' 0 8⟩ := by
  have h16 := trunc8_neighbours g (n := 12) (k := 2) (by decide)
  have h8 := trunc8_neighbours g (n := 6) (k := 4) (by decide)
  have h0 := trunc8_neighbours g (n := 0) (k := 6) (by decide)
  have hsymbol : ∀ v, dec6At Config.signedWidth (enc6 v) = zext Config.signedWidth v := dec6_enc6
  rw [Nat.sub_self, asr, BitVec.sshiftRight_zero] at h0
  simp only [Nat.reduceAdd, Nat.reduceSub] at h16 h8 h0
  simp only [dec4, dec4At, quadOfBits, hsymbol, h16, h8, h0]

/-- The quad of 24 bits decodes to those bits (R84, R87). -/
theorem chunkBits_dec4_quadOfBits (g : BitVec 24) : chunkBits (dec4 (quadOfBits g)).bytes = g := by
  have h8 : g.extractLsb' 16 8 ++ g.extractLsb' 8 8 = g.extractLsb' 8 16 :=
    BitVec.extractLsb'_append_extractLsb'_eq_extractLsb' rfl
  rw [quadOfBits_bytes, chunkBits, h8]
  exact BitVec.extractLsb'_append_extractLsb'

/-- A chunk's bits are its three bytes, first byte on top (R35). -/
theorem bytes_chunkBits (t : Triple) :
    (⟨(chunkBits t).extractLsb' 16 8, (chunkBits t).extractLsb' 8 8, (chunkBits t).extractLsb' 0 8⟩ : Triple) = t := by
  have h8 : (chunkBits t).extractLsb' 8 8 = t.b1 := by
    rw [chunkBits, BitVec.extractLsb'_append_eq_of_le (by decide)]
    exact BitVec.extractLsb'_append_eq_right
  have h16 : (chunkBits t).extractLsb' 16 8 = t.b0 := by
    rw [chunkBits, BitVec.extractLsb'_append_eq_of_le (by decide)]
    exact BitVec.extractLsb'_append_eq_left
  rw [h8, h16, chunkBits, BitVec.extractLsb'_append_eq_right]

/-- The quad decoder inverts the triplet encoder (R87). -/
theorem dec4_enc3 (t : Triple) : dec4 (enc3 t) = ⟨t, false⟩ := by
  have hbytes : (dec4 (enc3 t)).bytes = t := (quadOfBits_bytes (chunkBits t)).trans (bytes_chunkBits t)
  have hvalid : quadInAlphabet (enc3 t) = true := (quadInAlphabet_iff _).mpr ⟨_, rfl⟩
  have hsignal : (dec4 (enc3 t)).invalid = false := by rw [dec4_invalid, hvalid]; rfl
  exact congrArg₂ Decoded.mk hbytes hsignal

/-! ## Registers -/

/-- `R` as ENC3 leaves it holds its symbols where DEC4 looks for them in `A` (R51, R52). -/
theorem dec4Operand_enc3Result (q : Quad) : dec4Operand (enc3Result q) = q := by
  have h8 : (enc3Result q).extractLsb' 8 8 = q.s2 := by
    rw [enc3Result, BitVec.extractLsb'_append_eq_of_le (by decide)]
    exact BitVec.extractLsb'_append_eq_right
  have h16 : (enc3Result q).extractLsb' 16 8 = q.s1 := by
    rw [enc3Result, BitVec.extractLsb'_append_eq_of_le (by decide), BitVec.extractLsb'_append_eq_of_le (by decide)]
    exact BitVec.extractLsb'_append_eq_right
  have h24 : (enc3Result q).extractLsb' 24 8 = q.s0 := by
    rw [enc3Result, BitVec.extractLsb'_append_eq_of_le (by decide), BitVec.extractLsb'_append_eq_of_le (by decide)]
    exact BitVec.extractLsb'_append_eq_left
  rw [dec4Operand, h8, h16, h24, enc3Result, BitVec.extractLsb'_append_eq_right]

/-- DEC4 of what ENC3 leaves in `R` is the triple ENC3 was given, with no signal. -/
theorem dec4_enc3Result (a : Word) : dec4 (dec4Operand (enc3Result (enc3 (enc3Operand a)))) = ⟨enc3Operand a, false⟩ := by
  rw [dec4Operand_enc3Result, dec4_enc3]

/-- DEC4 issued with a result of ENC3 in `A` (R52, R82). -/
theorem exec_dec4_of_enc3Result {s : State} (h : s.phase = .idle) {a : Word}
    (hA : s.operandA = enc3Result (enc3 (enc3Operand a))) :
    ∃ u, exec .dec4 s = .next u ∧ u.r = (a.extractLsb' 0 24).setWidth 32 ∧ u.inv = false := by
  refine ⟨_, exec_dec4_of_idle h, ?_, ?_⟩
  · simp only [hA, dec4_enc3Result, dec4Result, chunkBits_enc3Operand, zext]
  · simp only [hA, dec4_enc3Result]

/-! ## The obligations -/

/-- Settles O15: at each width both symbol functions are their tables, and the quad decoder is a function of the table's values. -/
theorem tenBitsSufficeForSymbolArithmetic : Obligations.TenBitsSufficeForSymbolArithmetic := by
  unfold Obligations.TenBitsSufficeForSymbolArithmetic
  intro w hw
  refine ⟨fun v => ?_, fun b => ?_, fun q => ?_⟩
  · rw [enc6At_eq_alphabetByte (by omega), enc6_eq_alphabetByte]
  · rw [toInt_dec6At (by omega), toInt_dec6]
  · exact dec4At_eq_dec4 (by omega) q

/-- Settles O17: the first form is the definition; each group in the other picks out the same bits of the bytes. -/
theorem tripletGroupsByShiftAndMask : Obligations.TripletGroupsByShiftAndMask := by
  unfold Obligations.TripletGroupsByShiftAndMask
  intro b0 b1 b2
  refine ⟨rfl, ?_⟩
  calc enc3 ⟨b0, b1, b2⟩
      = ⟨enc6 ((b0 ++ b1 ++ b2).extractLsb' 18 6), enc6 ((b0 ++ b1 ++ b2).extractLsb' 12 6),
         enc6 ((b0 ++ b1 ++ b2).extractLsb' 6 6), enc6 ((b0 ++ b1 ++ b2).extractLsb' 0 6)⟩ := rfl
    _ = _ := by
      rw [Quad.mk.injEq]
      refine ⟨congrArg enc6 ?_, congrArg enc6 ?_, congrArg enc6 ?_, congrArg enc6 ?_⟩ <;>
      · ext i hi
        rw [BitVec.getElem_extractLsb', BitVec.getLsbD_append, BitVec.getLsbD_append]
        interval_cases i <;> simp

/-- Settles O18: what ENC3 makes of a triple is a quad of 24 bits, and DEC4 leads back to the triple. -/
theorem tripletEncoderIsInjective : Obligations.TripletEncoderIsInjective := by
  unfold Obligations.TripletEncoderIsInjective
  refine ⟨fun s h => ⟨_, exec_enc3_of_idle h, rfl⟩, fun t => (quadInAlphabet_iff _).mpr ⟨_, enc3_eq_quadOfBits t⟩,
    fun t u h => ?_⟩
  have hdec : dec4 (enc3 t) = dec4 (enc3 u) := congrArg dec4 h
  rw [dec4_enc3, dec4_enc3] at hdec
  exact congrArg Decoded.bytes hdec

/-- Settles O20: the signal is the negation of the alphabet test on the four symbols. -/
theorem signalMeansSomeSymbolInvalid : Obligations.SignalMeansSomeSymbolInvalid := by
  unfold Obligations.SignalMeansSomeSymbolInvalid
  intro q
  rw [dec4_invalid, quadInAlphabet]
  simp [or_assoc]

/-- Settles O21: the quad is that of 24 bits, which it decodes to and which are its groups put together. -/
theorem validQuadGivesItsBits : Obligations.ValidQuadGivesItsBits := by
  unfold Obligations.ValidQuadGivesItsBits
  intro q hq
  obtain ⟨g, rfl⟩ := (quadInAlphabet_iff q).mp hq
  have hindex : ∀ v, (dec6 (enc6 v)).setWidth 6 = v := fun v => by
    rw [dec6_enc6, zext, BitVec.setWidth_setWidth_of_le _ (by decide), BitVec.setWidth_eq]
  rw [chunkBits_dec4_quadOfBits]
  simp only [quadOfBits, hindex, append_groups]

/-- Settles O22: a triple is its 24 bits, and so is a quad of alphabet bytes. -/
theorem quadDecoderInvertsTripletEncoder : Obligations.QuadDecoderInvertsTripletEncoder := by
  unfold Obligations.QuadDecoderInvertsTripletEncoder
  refine ⟨dec4_enc3, fun q hq => ?_⟩
  obtain ⟨g, rfl⟩ := (quadInAlphabet_iff q).mp hq
  rw [enc3_eq_quadOfBits, chunkBits_dec4_quadOfBits]

/-- Settles O23: `R` of ENC3, read as an operand of DEC4, is the quad of `A[23:0]`. -/
theorem registerPackingsAreInverse : Obligations.RegisterPackingsAreInverse := by
  unfold Obligations.RegisterPackingsAreInverse
  intro s h
  obtain ⟨u, hu, hr, hinv⟩ := exec_dec4_of_enc3Result (a := s.operandA)
    (s := { s with
      a := enc3Result (enc3 (enc3Operand s.operandA)), aWritten := true, cmd := 4, status := .ok, rlen := 0, inv := false,
      r := enc3Result (enc3 (enc3Operand s.operandA)) }) h rfl
  exact ⟨_, u, exec_enc3_of_idle h, hu, hr, hinv⟩

end Sys2Proof.Machine

/-! The whole run of DECODE (R100 to R103, R106): by induction along the text as `decodeBytes` takes it apart, a group at a time.
The accumulator holds at each point whether anything decoded so far was invalid. -/

namespace Sys2Proof.Machine

/-! ## The text -/

theorem declen_add_four (n : Nat) : declen (n + 4) = 3 + declen n := by
  rw [declen, declen]
  omega

theorem declen_one : declen 1 = 0 := rfl

theorem declen_two : declen 2 = 1 := rfl

theorem declen_three : declen 3 = 2 := rfl

@[simp] theorem length_tripleBytes (t : Triple) : (tripleBytes t).length = 3 := rfl

/-- R62's length is that of the bytes of R100 and R102. -/
theorem length_decodeBytes (text : List Byte) : (decodeBytes text).length = declen text.length := by
  induction text using decodeBytes.induct with
  | case1 s0 s1 s2 s3 rest ih =>
    rw [decodeBytes, List.length_append, length_tripleBytes, ih]
    exact (declen_add_four rest.length).symm
  | case2 => exact declen_three.symm
  | case3 => exact declen_two.symm
  | case4 => exact declen_one.symm
  | case5 => rfl

theorem acceptable_iff (text : List Byte) :
    acceptable text = true ↔ (∀ b ∈ text, inAlphabet b = true) ∧ text.length % 4 ≠ 1 := by
  simp [acceptable]

/-- A text is acceptable exactly when its first group is in the alphabet and the rest is acceptable (R106). -/
theorem acceptable_group (s0 s1 s2 s3 : Byte) (rest : List Byte) :
    acceptable (s0 :: s1 :: s2 :: s3 :: rest) = (quadInAlphabet ⟨s0, s1, s2, s3⟩ && acceptable rest) := by
  simp [acceptable, quadInAlphabet, Bool.and_assoc, Nat.add_assoc]

@[simp] theorem inAlphabet_filler : inAlphabet Config.filler = true := rfl

/-- A lone symbol is not acceptable, whatever it is (R101). -/
theorem acceptable_one (s0 : Byte) : acceptable [s0] = false := by
  simp [acceptable]

theorem acceptable_two (s0 s1 : Byte) :
    acceptable [s0, s1] = quadInAlphabet ⟨s0, s1, Config.filler, Config.filler⟩ := by
  rw [quadInAlphabet, inAlphabet_filler]
  simp [acceptable]

theorem acceptable_three (s0 s1 s2 : Byte) : acceptable [s0, s1, s2] = quadInAlphabet ⟨s0, s1, s2, Config.filler⟩ := by
  rw [quadInAlphabet, inAlphabet_filler]
  simp [acceptable, Bool.and_assoc]

/-! ## The run of DECODE -/

/-- A DECODE past its length check whose text from `SRC[4 * IDX]` on is `rest`: what is left to decode, in FULL and in REM. -/
structure Decoding (s : State) (rest : List Byte) : Prop where
  driver : driverOf s.cmd = some .decode
  waits : HostWaits s
  length : 4 * s.idx.toNat + rest.length = s.inputLength
  holds : ∀ j (h : j < rest.length), memRead s.src (4 * s.idx.toNat + j) = some rest[j]
  input_fits : s.inputLength ≤ s.srcSize
  output_fits : declen s.inputLength ≤ s.dstSize

section
variable {s : State} {rest : List Byte}

theorem Decoding.readSrc_eq (h : Decoding s rest) {j : Nat} (hj : j < rest.length) :
    readSrc s (4 * s.idx.toNat + j) = .ok rest[j] := by
  have hlen := h.length
  have hfits := h.input_fits
  exact readSrc_of s _ _ (by omega) (h.holds j hj)

/-- With less than a group left, `IDX` has reached the number of full groups (R114). -/
theorem Decoding.idx_of_short (h : Decoding s rest) (hshort : rest.length < 4) : s.idx.toNat = s.inputLength / 4 := by
  have hlen := h.length
  omega

/-- The bytes of what is left fit `DST` from `3 * IDX` on. -/
theorem Decoding.room (h : Decoding s rest) : 3 * s.idx.toNat + declen rest.length ≤ s.dstSize := by
  have hlen := h.length
  have hfits := h.output_fits
  rw [declen] at hfits ⊢
  omega

/-- The state after one group of DECODE (R113). -/
def afterGroup (s : State) (q : Quad) : State :=
  { s with
    dst := memWriteAll s.dst (3 * s.idx.toNat) (tripleBytes (dec4 q).bytes)
    err := s.err || (dec4 q).invalid
    idx := s.idx + 1 }

variable {s0 s1 s2 s3 : Byte}

theorem Decoding.idx_lt (h : Decoding s (s0 :: s1 :: s2 :: s3 :: rest)) :
    s.idx.toNat < fullChunks .decode s.inputLength := by
  have hlen := h.length
  simp only [List.length_cons] at hlen
  rw [fullChunks_decode]
  omega

theorem Decoding.idx_afterGroup (h : Decoding s (s0 :: s1 :: s2 :: s3 :: rest)) (q : Quad) :
    (afterGroup s q).idx.toNat = s.idx.toNat + 1 := toNat_idx_add_one h.idx_lt

/-- A FULL step decodes the first group of what is left (R113). -/
theorem Decoding.step_group (h : Decoding s (s0 :: s1 :: s2 :: s3 :: rest)) (hp : s.phase = .full) :
    step s = .next (afterGroup s ⟨s0, s1, s2, s3⟩) := by
  have hroom := h.room
  have hcons : (s0 :: s1 :: s2 :: s3 :: rest).length = rest.length + 4 := rfl
  rw [hcons, declen_add_four] at hroom
  have hgroup : decodeGroup s = .ok (afterGroup s ⟨s0, s1, s2, s3⟩) :=
    (decodeGroup_eq_ok s _).mpr ⟨s0, s1, s2, s3, h.readSrc_eq (j := 0) (by simp), h.readSrc_eq (j := 1) (by simp),
      h.readSrc_eq (j := 2) (by simp), h.readSrc_eq (j := 3) (by simp), by omega, rfl⟩
  exact step_of_decode_group hp h.driver h.waits h.idx_lt hgroup

/-- After a group, the rest of the text is left. -/
theorem Decoding.decoding_afterGroup (h : Decoding s (s0 :: s1 :: s2 :: s3 :: rest)) (q : Quad) :
    Decoding (afterGroup s q) rest where
  driver := h.driver
  waits := h.waits
  length := by
    rw [h.idx_afterGroup, Nat.mul_add, Nat.add_assoc, Nat.add_comm 4]
    exact h.length
  holds j hj := by
    rw [h.idx_afterGroup, Nat.mul_add, Nat.add_assoc, Nat.add_comm 4]
    exact h.holds (j + 4) (Nat.add_lt_add_right hj 4)
  input_fits := h.input_fits
  output_fits := h.output_fits

/-- The state in which a DECODE that is at `s`, with `rest` left, comes to FIN: the bytes of the rest written, and `ERR` up if it
was up or the rest is not acceptable (R100 to R103). -/
def decodeTail (s : State) (rest : List Byte) : State :=
  { s with
    idx := BitVec.ofNat 32 (s.inputLength / 4)
    dst := memWriteAll s.dst (3 * s.idx.toNat) (decodeBytes rest)
    err := s.err || !(acceptable rest)
    phase := .fin }

theorem Decoding.decodeTail_of_short (h : Decoding s rest) (hshort : rest.length < 4) :
    decodeTail s rest = { s with
      dst := memWriteAll s.dst (3 * s.idx.toNat) (decodeBytes rest)
      err := s.err || !(acceptable rest)
      phase := .fin } := by
  rw [decodeTail, ← h.idx_of_short hshort, BitVec.ofNat_toNat, BitVec.setWidth_eq]

/-- The remainder of DECODE is the end of the text: what is left, padded with fillers, of whose bytes the leading ones are kept
(R101, R102, R116). -/
theorem Decoding.decodeRemainder_eq (h : Decoding s rest) (hshort : rest.length < 4) :
    decodeRemainder s = .ok (decodeTail s rest) := by
  have hidx := h.idx_of_short hshort
  have hlen := h.length
  have hroom := h.room
  rw [h.decodeTail_of_short hshort, decodeRemainder, decodeRemainderWith_eq_ok, ← hidx]
  match rest, hshort with
  | [], _ =>
    rw [List.length_nil] at hlen hroom
    have hrem : s.inputLength % 4 = 0 := by omega
    rw [hrem]
    refine ⟨Config.filler, Config.filler, Config.filler, rfl, rfl, rfl, hroom, ?_⟩
    rw [dec4_fillers_valid, Bool.or_assoc]
    rfl
  | [s0], _ =>
    rw [List.length_singleton] at hlen hroom
    have hrem : s.inputLength % 4 = 1 := by omega
    rw [hrem]
    refine ⟨s0, Config.filler, Config.filler, h.readSrc_eq (j := 0) (by simp), rfl, rfl, hroom, ?_⟩
    rw [acceptable_one, Bool.or_assoc]
    rfl
  | [s0, s1], _ =>
    rw [List.length_cons, List.length_singleton] at hlen hroom
    have hrem : s.inputLength % 4 = 2 := by omega
    rw [hrem]
    refine ⟨s0, s1, Config.filler, h.readSrc_eq (j := 0) (by simp), h.readSrc_eq (j := 1) (by simp), rfl, hroom, ?_⟩
    rw [acceptable_two, dec4_invalid, Bool.or_assoc]
    rfl
  | [s0, s1, s2], _ =>
    rw [List.length_cons, List.length_cons, List.length_singleton] at hlen hroom
    have hrem : s.inputLength % 4 = 3 := by omega
    rw [hrem]
    refine ⟨s0, s1, s2, h.readSrc_eq (j := 0) (by simp), h.readSrc_eq (j := 1) (by simp), h.readSrc_eq (j := 2) (by simp),
      hroom, ?_⟩
    rw [acceptable_three, dec4_invalid, Bool.or_assoc]
    rfl

/-- The state in which a DECODE that is at `s`, with `rest` left, ends (R118). -/
def decodeEnd (s : State) (rest : List Byte) : State :=
  finStep .decode (decodeTail s rest)

/-- Decoding a group and then the rest is decoding the text of both: the bytes follow each other, and the signals add up. -/
theorem Decoding.decodeEnd_afterGroup (h : Decoding s (s0 :: s1 :: s2 :: s3 :: rest)) :
    decodeEnd (afterGroup s ⟨s0, s1, s2, s3⟩) rest = decodeEnd s (s0 :: s1 :: s2 :: s3 :: rest) := by
  rw [decodeEnd, decodeTail, h.idx_afterGroup, decodeEnd, decodeTail, decodeBytes, memWriteAll_append, acceptable_group,
    Bool.not_and, ← dec4_invalid, ← Bool.or_assoc]
  rfl

/-- With less than a group left, DECODE ends in three steps: the end of FULL, REM and FIN (R114, R116, R118). -/
theorem Decoding.run_of_short (h : Decoding s rest) (hp : s.phase = .full) (hshort : rest.length < 4) :
    runSteps (rest.length / 4 + 3) s = .next (decodeEnd s rest) := by
  have hidx := h.idx_of_short hshort
  have hleft : Decoding { s with phase := .rem } rest :=
    ⟨h.driver, h.waits, h.length, h.holds, h.input_fits, h.output_fits⟩
  have hfull : step s = .next { s with phase := .rem } := step_of_full_end hp h.driver h.waits hidx
  have hrem : step { s with phase := .rem } = .next (decodeTail s rest) :=
    step_of_decode_remainder rfl h.driver h.waits (hleft.decodeRemainder_eq hshort)
  have hfin : step (decodeTail s rest) = .next (decodeEnd s rest) := step_of_fin rfl h.driver h.waits
  rw [Nat.div_eq_of_lt hshort, runSteps_succ _ _ _ hfull, runSteps_succ _ _ _ hrem, runSteps_succ _ _ _ hfin,
    runSteps_zero]

/-- DECODE takes one step for each full group left and three to end, and writes the bytes of what is left. -/
theorem Decoding.run (h : Decoding s rest) (hp : s.phase = .full) :
    runSteps (rest.length / 4 + 3) s = .next (decodeEnd s rest) := by
  induction rest using decodeBytes.induct generalizing s with
  | case1 s0 s1 s2 s3 rest ih =>
    have hcount : (s0 :: s1 :: s2 :: s3 :: rest).length / 4 + 3 = (rest.length / 4 + 3) + 1 := by
      simp only [List.length_cons]
      omega
    rw [hcount, runSteps_succ _ _ _ (h.step_group hp), ih (h.decoding_afterGroup _) hp, h.decodeEnd_afterGroup]
  | case2 | case3 | case4 | case5 => exact h.run_of_short hp (by simp)

end

/-! ## The command -/

/-- The state of a DECODE just past its length check (R111). -/
def decodeStart (s : State) : State := { s with cmd := 7, idx := 0, err := false, phase := .full }

/-- Past the length check, the whole text is left to decode. -/
theorem Ready.decoding {s : State} {text : List Byte} (h : Ready s text) (hroom : declen s.inputLength ≤ s.capacity) :
    Decoding (decodeStart s) text where
  driver := rfl
  waits := h.waits
  length := (Nat.zero_add _).trans h.length
  holds j hj := (congrArg (memRead s.src) (Nat.zero_add j)).trans (h.holds j hj)
  input_fits := h.input_fits
  output_fits := hroom.trans h.offer_fits

/-- The state in which a DECODE of `text` ends that had room for its bytes (R118). -/
def decoded (s : State) (text : List Byte) : State :=
  { s with
    cmd := 7, idx := BitVec.ofNat 32 (s.inputLength / 4), err := !(acceptable text),
    status := if acceptable text then .ok else .invalidEncoding,
    rlen := if acceptable text then BitVec.ofNat 33 (declen s.inputLength) else 0,
    inv := !(acceptable text), r := 0,
    dst := memWriteAll s.dst 0 (decodeBytes text) }

theorem decodeEnd_decodeStart {s : State} (h : s.phase = .idle) (text : List Byte) :
    decodeEnd (decodeStart s) text = decoded s text := by
  have herr : (decodeTail (decodeStart s) text).err = !(acceptable text) := Bool.false_or _
  cases hok : acceptable text with
  | true =>
    rw [hok] at herr
    rw [decodeEnd, finStep_decode_valid herr, complete, ← h, decoded, decodeTail, hok]
    rfl
  | false =>
    rw [hok] at herr
    rw [decodeEnd, finStep_decode_invalid herr, complete, ← h, decoded, decodeTail, hok]
    rfl

/-- DECODE with room, once issued: its length check, then its whole text. -/
theorem Ready.decode_run {s : State} {text : List Byte} (h : Ready s text) (hroom : declen s.inputLength ≤ s.capacity) :
    runSteps (s.inputLength / 4 + 4) (issuedDriver .decode s) = .next (decoded s text) := by
  have hcheck : step (issuedDriver .decode s) = .next (decodeStart s) := step_issuedDriver_room h.waits hroom
  rw [runSteps_succ _ _ _ hcheck, ← h.length, ← decodeEnd_decodeStart h.idle]
  exact (h.decoding hroom).run rfl

theorem Ready.exec_decode {s : State} {text : List Byte} (h : Ready s text) :
    exec .decode s = .next (issuedDriver .decode s) :=
  exec_driverCommandOf_of_idle (d := .decode) h.idle h.input_fits h.offer_fits

/-- A DECODE without room is complete after its length check (R111). -/
theorem Ready.decode_short {s : State} {text : List Byte} (h : Ready s text) (hshort : s.capacity < declen s.inputLength) :
    ∃ t, step (issuedDriver .decode s) = .next t ∧ t.phase = .idle ∧ t.status = .invalidLength :=
  ⟨_, step_issuedDriver_short (d := .decode) h.idle h.waits hshort, h.idle, rfl⟩

/-! ## The obligations -/

/-- Settles O43: the run is `Decoding.run` after the length check, by induction along the text. -/
theorem decodeRunsToCompletion : Obligations.DecodeRunsToCompletion := by
  unfold Obligations.DecodeRunsToCompletion
  intro s text h hroom
  exact ⟨⟨_, h.exec_decode, h.decode_run hroom⟩, by rw [length_decodeBytes, h.length]⟩

/-- Settles O45: with room the run ends in the text's verdict, and without room in InvalidLength. -/
theorem decodeAcceptsExactlyValidText : Obligations.DecodeAcceptsExactlyValidText := by
  unfold Obligations.DecodeAcceptsExactlyValidText
  refine ⟨fun s text h => ?_, rfl, rfl, rfl, rfl, rfl, rfl⟩
  rcases Nat.lt_or_ge s.capacity (declen s.inputLength) with hshort | hroom
  · obtain ⟨t, ht, hidle, hstatus⟩ := h.decode_short hshort
    refine ⟨_, 1, t, h.exec_decode, runSteps_succ _ _ 0 ht, hidle, ?_⟩
    rw [hstatus]
    exact ⟨nofun, fun hok => absurd hok.1 (Nat.not_le.mpr hshort)⟩
  · refine ⟨_, _, _, h.exec_decode, h.decode_run hroom, h.idle, ?_⟩
    rw [← h.length, ← acceptable_iff, h.length, and_iff_right hroom]
    cases hok : acceptable text <;> simp [decoded, hok]

/-- Settles O46: without room the length check ends the command; five symbols leave a lone one, which no text may. -/
theorem invalidLengthHasPriority : Obligations.InvalidLengthHasPriority := by
  unfold Obligations.InvalidLengthHasPriority
  refine ⟨fun s text h hshort => ?_, rfl, fun s text h hfive hroom => ?_⟩
  · obtain ⟨t, ht⟩ := h.decode_short hshort
    exact ⟨_, t, h.exec_decode, ht⟩
  · have hlone : acceptable text = false := by
      rw [Bool.eq_false_iff, ne_eq, acceptable_iff, h.length, hfive]
      exact fun hok => hok.2 rfl
    have hrun := h.decode_run (by rw [hfive]; exact hroom)
    rw [hfive] at hrun
    exact ⟨_, _, h.exec_decode, hrun, h.idle, by simp [decoded, hlone]⟩

end Sys2Proof.Machine

/-! The length functions as inverses (R63), and ENCODE and DECODE as inverses on whole texts (R107). -/

namespace Sys2Proof.Machine

/-! ## Lengths -/

theorem declen_enclen (n : Nat) : declen (enclen n) = n := by
  rw [declen, enclen_eq_ceil]
  omega

/-- Settles O9: R63 is arithmetic on the closed forms. -/
theorem lengthsAreInverseButForOne : Obligations.LengthsAreInverseButForOne := by
  unfold Obligations.LengthsAreInverseButForOne
  refine ⟨declen_enclen, fun m hm => ?_, fun m hm => ?_, fun s h => ⟨_, exec_declen_of_idle h, rfl⟩⟩
  · rw [enclen_eq_ceil, declen]
    obtain hm | hm | hm : m % 4 = 0 ∨ m % 4 = 2 ∨ m % 4 = 3 := by omega
    all_goals omega
  · rw [enclen_eq_ceil, declen]
    omega

/-! ## Texts -/

/-- A chunk padded with one zero byte ends in the symbol that pads a group: both are the symbol of 0 (R92, R102). -/
theorem enc3_s3_of_padded (b0 b1 : Byte) : (enc3 ⟨b0, b1, 0x00⟩).s3 = Config.filler := by
  have hgroup : (chunkBits ⟨b0, b1, 0x00⟩).extractLsb' 0 6 = 0 := by
    rw [chunkBits, BitVec.extractLsb'_append_eq_of_add_le (by decide)]
    rfl
  rw [enc3, hgroup]
  rfl

theorem enc3_s2_of_padded (b0 : Byte) : (enc3 ⟨b0, 0x00, 0x00⟩).s2 = Config.filler := by
  have hgroup : (chunkBits ⟨b0, 0x00, 0x00⟩).extractLsb' 6 6 = 0 := by
    have hzeros : chunkBits ⟨b0, 0x00, 0x00⟩ = b0 ++ (0 : BitVec 16) := by
      have h : (0x00 : Byte) ++ (0x00 : Byte) = (0 : BitVec 16) := rfl
      rw [← h, chunkBits, BitVec.append_assoc]
      rfl
    rw [hzeros, BitVec.extractLsb'_append_eq_of_add_le (by decide)]
    rfl
  rw [enc3, hgroup]
  rfl

/-- On whole texts too the decoder inverts the encoder (R107). -/
theorem decodeBytes_encodeText (input : List Byte) : decodeBytes (encodeText input) = input := by
  induction input using encodeText.induct with
  | case1 b0 b1 b2 rest ih =>
    calc decodeBytes (encodeText (b0 :: b1 :: b2 :: rest))
        = tripleBytes (dec4 (enc3 ⟨b0, b1, b2⟩)).bytes ++ decodeBytes (encodeText rest) := rfl
      _ = b0 :: b1 :: b2 :: rest := by rw [dec4_enc3, ih]; rfl
  | case2 b0 b1 =>
    have hquad : (⟨(enc3 ⟨b0, b1, 0x00⟩).s0, (enc3 ⟨b0, b1, 0x00⟩).s1, (enc3 ⟨b0, b1, 0x00⟩).s2, Config.filler⟩ : Quad) =
        enc3 ⟨b0, b1, 0x00⟩ := congrArg (Quad.mk _ _ _) (enc3_s3_of_padded b0 b1).symm
    calc decodeBytes (encodeText [b0, b1])
        = (tripleBytes (dec4 ⟨(enc3 ⟨b0, b1, 0x00⟩).s0, (enc3 ⟨b0, b1, 0x00⟩).s1, (enc3 ⟨b0, b1, 0x00⟩).s2,
            Config.filler⟩).bytes).take 2 := rfl
      _ = [b0, b1] := by rw [hquad, dec4_enc3]; rfl
  | case3 b0 =>
    have hquad : (⟨(enc3 ⟨b0, 0x00, 0x00⟩).s0, (enc3 ⟨b0, 0x00, 0x00⟩).s1, Config.filler, Config.filler⟩ : Quad) =
        enc3 ⟨b0, 0x00, 0x00⟩ :=
      congrArg₂ (Quad.mk _ _) (enc3_s2_of_padded b0).symm (enc3_s3_of_padded b0 0x00).symm
    calc decodeBytes (encodeText [b0])
        = (tripleBytes (dec4 ⟨(enc3 ⟨b0, 0x00, 0x00⟩).s0, (enc3 ⟨b0, 0x00, 0x00⟩).s1, Config.filler,
            Config.filler⟩).bytes).take 1 := rfl
      _ = [b0] := by rw [hquad, dec4_enc3]; rfl
  | case4 => rfl

/-- What ENCODE writes is acceptable to DECODE (R106, R107). -/
theorem acceptable_encodeText (input : List Byte) : acceptable (encodeText input) = true := by
  rw [acceptable_iff, length_encodeText]
  exact ⟨fun _ hb => inAlphabet_of_mem_encodeText hb, enclen_mod_four_ne_one _⟩

/-! ## The round trip -/

theorem memRead_memWriteAll_zero (m : Memory) {bytes : List Byte} {j : Nat} (hj : j < bytes.length) :
    memRead (memWriteAll m 0 bytes) j = some bytes[j] := by
  have hread := memRead_memWriteAll_inside m 0 j bytes hj
  rwa [Nat.zero_add] at hread

/-- The state in which an ENCODE of a ready input ends holds the text from `DST[0]` on. -/
theorem memRead_encodeEnd (s : State) (input : List Byte) {j : Nat} (hj : j < (encodeText input).length) :
    memRead (encodeEnd (encodeStart s) input).dst j = some (encodeText input)[j] :=
  memRead_memWriteAll_zero s.dst hj

theorem rlen_encodeEnd (s : State) (input : List Byte) :
    (encodeEnd (encodeStart s) input).rlen.toNat = enclen s.inputLength :=
  rlenOf_toNat (enclen_lt_of_lt (inputLength_lt s))

/-- A DECODE of an encoded text that has room ends with OK and the input written from `DST[0]` on. -/
theorem Ready.decode_encodeText {u : State} {input : List Byte} (h : Ready u (encodeText input))
    (hroom : input.length ≤ u.capacity) :
    ∃ v, runSteps (u.inputLength / 4 + 4) (issuedDriver .decode u) = .next v ∧ v.phase = .idle ∧ v.status = .ok ∧
      v.rlen.toNat = input.length ∧ ∀ j (h : j < input.length), memRead v.dst j = some input[j] := by
  have hlen : declen u.inputLength = input.length := by rw [← h.length, length_encodeText, declen_enclen]
  have hlt : declen u.inputLength < 2 ^ 33 := (declen_le _).trans_lt ((inputLength_lt u).trans (by decide))
  have hok := acceptable_encodeText input
  refine ⟨_, h.decode_run (by rw [hlen]; exact hroom), h.idle, ?_, ?_, fun j hj => ?_⟩
  · simp only [decoded, hok, if_true]
  · simp only [decoded, hok, if_true]
    rw [← hlen]
    exact rlenOf_toNat hlt
  · rw [decoded, decodeBytes_encodeText]
    exact memRead_memWriteAll_zero u.dst hj

/-- Settles O48: the text that the ENCODE leaves is the DECODE's input, whose decoded bytes are those encoded. -/
theorem decodeOfEncodeIsTheInput : Obligations.DecodeOfEncodeIsTheInput := by
  unfold Obligations.DecodeOfEncodeIsTheInput
  intro s input h hroom
  refine ⟨_, _, exec_encode_of_idle h.idle h.input_fits h.offer_fits, h.encode_run hroom, rfl, rfl, ?_⟩
  intro u hidle hw hn hsrc hin hout hroom'
  rw [rlen_encodeEnd] at hn hsrc
  have hlen : (encodeText input).length = u.inputLength := by rw [length_encodeText, h.length, hn]
  have hready : Ready u (encodeText input) :=
    { idle := hidle, waits := hw, length := hlen, input_fits := hin, offer_fits := hout
      holds := fun j hj => by rw [hsrc j (by omega), memRead_encodeEnd s input hj] }
  obtain ⟨v, hv⟩ := hready.decode_encodeText hroom'
  exact ⟨_, v, hready.exec_decode, hv⟩

end Sys2Proof.Machine

/-! ENCODE's text as the input's bit string in 6-bit groups (R95). -/

namespace Sys2Proof.Machine

theorem getLsbD_sextet : ∀ b5 b4 b3 b2 b1 b0 : Bool,
    (sextet b5 b4 b3 b2 b1 b0).getLsbD 0 = b0 ∧ (sextet b5 b4 b3 b2 b1 b0).getLsbD 1 = b1 ∧
    (sextet b5 b4 b3 b2 b1 b0).getLsbD 2 = b2 ∧ (sextet b5 b4 b3 b2 b1 b0).getLsbD 3 = b3 ∧
    (sextet b5 b4 b3 b2 b1 b0).getLsbD 4 = b4 ∧ (sextet b5 b4 b3 b2 b1 b0).getLsbD 5 = b5 := by decide

/-- Six neighbouring bits, most significant first, are a 6-bit group. -/
theorem sextet_getLsbD {w : Nat} (x : BitVec w) (k : Nat) :
    sextet (x.getLsbD (k + 5)) (x.getLsbD (k + 4)) (x.getLsbD (k + 3)) (x.getLsbD (k + 2)) (x.getLsbD (k + 1))
      (x.getLsbD k) = x.extractLsb' k 6 := by
  obtain ⟨h0, h1, h2, h3, h4, h5⟩ := getLsbD_sextet (x.getLsbD (k + 5)) (x.getLsbD (k + 4)) (x.getLsbD (k + 3))
    (x.getLsbD (k + 2)) (x.getLsbD (k + 1)) (x.getLsbD k)
  apply BitVec.eq_of_getLsbD_eq
  intro i hi
  rw [BitVec.getLsbD_extractLsb', decide_eq_true hi, Bool.true_and]
  interval_cases i
  · exact h0
  · exact h1
  · exact h2
  · exact h3
  · exact h4
  · exact h5

/-- The four groups of a chunk by the bits of its bytes (R78). -/
theorem enc3_eq_sextets (b0 b1 b2 : Byte) :
    quadBytes (enc3 ⟨b0, b1, b2⟩) = (sextets (byteBits b0 ++ byteBits b1 ++ byteBits b2)).map enc6 := by
  simp only [enc3, ← sextet_getLsbD, chunkBits, BitVec.getLsbD_append]
  rfl

/-- Settles O42, along the input: the bits of a chunk are those of its four groups, and so are those of a remainder with its
zero bytes, of which the symbols beyond the input's own bits are dropped. -/
theorem encodeIsTheBitString : Obligations.EncodeIsTheBitString := by
  unfold Obligations.EncodeIsTheBitString
  intro input
  induction input using encodeText.induct with
  | case1 b0 b1 b2 rest ih =>
    rw [encodeText, enc3_eq_sextets, ih]
    rfl
  | case2 b0 b1 =>
    rw [encodeText, enc3_eq_sextets]
    rfl
  | case3 b0 =>
    rw [encodeText, enc3_eq_sextets]
    rfl
  | case4 => rfl
end Sys2Proof.Machine

/-! The commands as the host presents them (R47, R109, R110): what each of the six short ones leaves, what issues a driver, and
which presentations are refused (R143, R144). -/

namespace Sys2Proof.Machine

/-! ## Short commands and drivers -/

/-- A command is short, or it starts a driver (R110). -/
theorem isShort_or_driver (i : Instr) : isShort i = true ∨ ∃ d, i = driverCommandOf d := by
  cases i with
  | encode => exact .inr ⟨.encode, rfl⟩
  | decode => exact .inr ⟨.decode, rfl⟩
  | enclen | declen | enc6 | dec6 | enc3 | dec4 => exact .inl rfl

/-- A short command is a completion with status OK whose results are a function of what `A` and `N` read as (R110). -/
theorem exists_results_of_isShort {i : Instr} (h : isShort i = true) :
    ∃ f : Word → Nat → LongLength × Bool × Word, ∀ s, exec i s = shortCommand (encode i) s
      (complete .ok (f s.operandA s.inputLength).1 (f s.operandA s.inputLength).2.1 (f s.operandA s.inputLength).2.2) := by
  cases i with
  | enclen => exact ⟨fun _ n => (rlenOf (enclen n), false, 0), exec_enclen_eq⟩
  | declen => exact ⟨fun _ n => (rlenOf (declen n), false, 0), exec_declen_eq⟩
  | enc6 => exact ⟨fun a _ => (0, false, enc6Result (enc6 (enc6Operand a))), exec_enc6_eq⟩
  | dec6 => exact ⟨fun a _ => (0, invalidMark (dec6 (dec6Operand a)), dec6Result (dec6 (dec6Operand a))), exec_dec6_eq⟩
  | enc3 => exact ⟨fun a _ => (0, false, enc3Result (enc3 (enc3Operand a))), exec_enc3_eq⟩
  | dec4 => exact ⟨fun a _ => (0, (dec4 (dec4Operand a)).invalid, dec4Result (dec4 (dec4Operand a)).bytes), exec_dec4_eq⟩
  | encode | decode => simp [isShort] at h

theorem exec_driverCommandOf_eq (d : Driver) (s : State) :
    exec (driverCommandOf d) s = driverCommand (encode (driverCommandOf d)) s := by
  cases d <;> rfl

/-- No command has an effect on a busy block (R144). -/
theorem exec_of_busy (i : Instr) {s : State} (hbusy : s.phase ≠ .idle) : exec i s = .refused .commandWhileBusy := by
  rcases isShort_or_driver i with h | ⟨d, rfl⟩
  · obtain ⟨k, v, r, hexec⟩ := exec_of_isShort h s
    rw [hexec, shortCommand, whenIdle_busy _ _ _ hbusy]
  · rw [exec_driverCommandOf_eq, driverCommand, whenIdle_busy _ _ _ hbusy]

/-- What a command can answer as a next state: a short one completes with OK, a driver goes to CHECK within its bounds. -/
theorem exec_eq_next {i : Instr} {s t : State} (h : exec i s = .next t) :
    s.phase = .idle ∧
      ((∃ k v r, t = complete .ok k v r (latchCommand (encode i) s)) ∨
        ∃ d, i = driverCommandOf d ∧ s.inputLength ≤ s.srcSize ∧ s.capacity ≤ s.dstSize ∧ t = issuedDriver d s) := by
  rcases isShort_or_driver i with hi | ⟨d, rfl⟩
  · obtain ⟨k, v, r, hexec⟩ := exec_of_isShort hi s
    rw [hexec, shortCommand_eq_next] at h
    exact ⟨h.1, .inl ⟨k, v, r, h.2⟩⟩
  · rw [exec_driverCommandOf_eq, driverCommand_eq_next] at h
    obtain ⟨hp, hn, hc, ht⟩ := h
    exact ⟨hp, .inr ⟨d, rfl, hn, hc, ht⟩⟩

/-- Within its bounds a command presented to an idle block is answered. -/
theorem exists_exec_eq_next (i : Instr) {s : State} (h : s.phase = .idle)
    (hfits : isShort i = false → s.inputLength ≤ s.srcSize ∧ s.capacity ≤ s.dstSize) : ∃ t, exec i s = .next t := by
  rcases isShort_or_driver i with hi | ⟨d, rfl⟩
  · obtain ⟨k, v, r, hexec⟩ := exec_of_isShort hi s
    exact ⟨_, by rw [hexec, shortCommand_of s _ _ h]⟩
  · obtain ⟨hn, hc⟩ := hfits (by cases d <;> rfl)
    exact ⟨_, exec_driverCommandOf_of_idle h hn hc⟩

/-! ## Words -/

/-- The decoder answers for every word of three bits or more. -/
theorem decodeTableWord_of_three_le {nbits : Nat} (h : 3 ≤ nbits) (w : Nat) :
    decodeTableWord nbits w = some (decodePort (portCode w)) := by
  rw [decodeTableWord, decodeWord, if_neg (by omega)]

/-- Three bits or more of a word hold its code. -/
theorem portCode_mod {nbits : Nat} (h : 3 ≤ nbits) (w : Nat) : portCode (w % 2 ^ nbits) = portCode w := by
  have hdvd : 2 ^ 3 ∣ 2 ^ nbits := Nat.pow_dvd_pow 2 h
  apply BitVec.eq_of_toNat_eq
  rw [portCode, portCode, BitVec.toNat_ofNat, BitVec.toNat_ofNat, Nat.mod_mod_of_dvd _ hdvd]

/-! ## The obligations -/

/-- Settles O24: a short command is one completion, of which the list of untouched fields can be read off. -/
theorem shortCommandsLeaveTheRestAlone : Obligations.ShortCommandsLeaveTheRestAlone := by
  unfold Obligations.ShortCommandsLeaveTheRestAlone
  intro i s hi h
  obtain ⟨k, v, r, hexec⟩ := exec_of_isShort hi s
  rw [hexec, shortCommand_of s _ _ h]
  exact ⟨_, rfl, rfl, rfl, rfl, rfl, rfl, rfl, rfl, rfl, rfl, rfl, rfl, fun _ => rfl, fun _ => rfl, rfl, rfl, rfl, rfl, rfl⟩

/-- Settles O25: the results are one function of what `A` and `N` read as, the same in both states. -/
theorem shortCommandsForgetTheState : Obligations.ShortCommandsForgetTheState := by
  unfold Obligations.ShortCommandsForgetTheState
  intro i s t hi hs ht ha hn
  obtain ⟨f, hf⟩ := exists_results_of_isShort hi
  rw [hf, hf, ← ha, ← hn, shortCommand_of s _ _ hs, shortCommand_of t _ _ ht]
  exact ⟨_, _, rfl, rfl, rfl, rfl, rfl, rfl⟩

/-- Settles O26: the short commands complete, and within the bounds a driver's issue is an exact next state. -/
theorem issueLatchesAndStarts : Obligations.IssueLatchesAndStarts := by
  unfold Obligations.IssueLatchesAndStarts
  refine ⟨fun i s hi h => ?_, fun s h hn hc => ⟨?_, ?_⟩⟩
  · obtain ⟨k, v, r, hexec⟩ := exec_of_isShort hi s
    exact ⟨_, by rw [hexec, shortCommand_of s _ _ h], rfl, rfl⟩
  · exact exec_driverCommandOf_of_idle (d := .encode) h hn hc
  · exact exec_driverCommandOf_of_idle (d := .decode) h hn hc

/-- Settles O27: a busy block refuses every command, and an idle one a driver by its two bounds, `N` first. -/
theorem brokenIssueIsRefused : Obligations.BrokenIssueIsRefused := by
  unfold Obligations.BrokenIssueIsRefused
  refine ⟨fun i s hbusy => exec_of_busy i hbusy, fun d s h hn => ?_, fun d s h hn hc => ?_⟩
  · rw [exec_driverCommandOf_eq, driverCommand, whenIdle_idle _ _ _ h, if_pos hn]
  · rw [exec_driverCommandOf_eq, driverCommand, whenIdle_idle _ _ _ h, if_neg (by omega), if_pos hc]

/-- Settles O3: the host's move is the command itself, and a word holds the code of its low three bits. -/
theorem stepRunsThePresentedCommand : Obligations.StepRunsThePresentedCommand := by
  unfold Obligations.StepRunsThePresentedCommand
  refine ⟨fun s op rest h => step_cons s _ _ h, fun s nbits w hbits => ⟨_, decodeTableWord_of_three_le hbits w, ?_⟩⟩
  rw [step_cons _ _ _ rfl, portCode_mod hbits]
  rfl

end Sys2Proof.Machine

namespace Sys2Proof

/-- Settles O2: each row of the table is its command's, and a code is the low three bits of its word. -/
theorem decodeAndEncodeAgree : Obligations.DecodeAndEncodeAgree := by
  unfold Obligations.DecodeAndEncodeAgree
  refine ⟨fun i => ⟨by cases i <;> rfl, decodePort_encode i, ?_⟩, encode_decodePort⟩
  rw [Machine.decodeTableWord_of_three_le (by decide), portCode, BitVec.ofNat_toNat, BitVec.setWidth_eq, decodePort_encode]

end Sys2Proof

/-! The frame of a micro-step (R111 to R118): what it may change, where it stores, and what it leaves in the result registers. -/

namespace Sys2Proof.Machine

section
variable {s t : State} {d : Driver}

/-- A micro-step changes the result registers, `PHASE`, `IDX`, `ERR` and `DST` at most. -/
theorem microStep_frame (hbusy : s.phase ≠ .idle) (h : microStep s = .next t) :
    ∃ r rlen inv status phase idx err dst, t = { s with
      r := r, rlen := rlen, inv := inv, status := status, phase := phase, idx := idx, err := err, dst := dst } := by
  obtain ⟨d, -, h⟩ := (microStep_eq_next s t hbusy).mp h
  rcases h with ⟨-, rfl⟩ | ⟨-, -, -, h⟩ | ⟨-, -, -, h⟩ | ⟨-, -, rfl⟩ | ⟨-, -, h⟩ | ⟨-, -, h⟩ | ⟨-, rfl⟩
  · unfold checkStep
    split <;> exact ⟨_, _, _, _, _, _, _, _, rfl⟩
  · obtain ⟨_, _, _, _, _, _, _, rfl⟩ := (encodeChunk_eq_ok _ _).mp h
    exact ⟨_, _, _, _, _, _, _, _, rfl⟩
  · obtain ⟨_, _, _, _, _, _, _, _, _, rfl⟩ := (decodeGroup_eq_ok _ _).mp h
    exact ⟨_, _, _, _, _, _, _, _, rfl⟩
  · exact ⟨_, _, _, _, _, _, _, _, rfl⟩
  · rcases (encodeRemainder_eq_ok _ _).mp h with ⟨_, rfl⟩ | ⟨_, _, _, _, _, _, rfl⟩ <;> exact ⟨_, _, _, _, _, _, _, _, rfl⟩
  · obtain ⟨_, _, _, _, _, _, _, rfl⟩ := (decodeRemainderWith_eq_ok _ _ _).mp h
    exact ⟨_, _, _, _, _, _, _, _, rfl⟩
  · cases d <;> exact ⟨_, _, _, _, _, _, _, _, rfl⟩

/-! ## Where a micro-step stores -/

theorem storedAt_of_check (hp : s.phase = .check) : storedAt d s = (0, 0) := by
  cases d <;> simp only [storedAt, hp]

theorem storedAt_of_fin (hp : s.phase = .fin) : storedAt d s = (0, 0) := by
  cases d <;> simp only [storedAt, hp]

theorem storedAt_of_full_end (hp : s.phase = .full) (hidx : ¬ s.idx.toNat < fullChunks d s.inputLength) :
    storedAt d s = (0, 0) := by
  cases d <;> simp only [storedAt, hp, if_neg hidx]

theorem storedAt_of_encode_chunk (hp : s.phase = .full) (hidx : s.idx.toNat < fullChunks .encode s.inputLength) :
    storedAt .encode s = (4 * s.idx.toNat, 4) := by
  simp only [storedAt, hp, if_pos hidx]

theorem storedAt_of_decode_group (hp : s.phase = .full) (hidx : s.idx.toNat < fullChunks .decode s.inputLength) :
    storedAt .decode s = (3 * s.idx.toNat, 3) := by
  simp only [storedAt, hp, if_pos hidx]

theorem storedAt_of_encode_no_remainder (hp : s.phase = .rem) (hrem : s.inputLength % 3 = 0) :
    storedAt .encode s = (0, 0) := by
  simp only [storedAt, hp]
  exact if_pos hrem

theorem storedAt_of_encode_remainder (hp : s.phase = .rem) (hrem : s.inputLength % 3 ≠ 0) :
    storedAt .encode s = (4 * (s.inputLength / 3), s.inputLength % 3 + 1) := by
  simp only [storedAt, hp]
  exact if_neg hrem

theorem storedAt_of_decode_remainder (hp : s.phase = .rem) :
    storedAt .decode s = (3 * (s.inputLength / 4), 3 * (s.inputLength % 4) / 4) := by
  simp only [storedAt, hp, remainder_decode, fullChunks_decode, remainderBytes]

/-- A micro-step stores its bytes at the place `storedAt` names, inside `DST`, and nowhere else (R38, R112 to R116). -/
theorem microStep_stores (hbusy : s.phase ≠ .idle) (hd : driverOf s.cmd = some d) (h : microStep s = .next t) :
    ∃ bytes, t.dst = memWriteAll s.dst (storedAt d s).1 bytes ∧ bytes.length = (storedAt d s).2 ∧
      (storedAt d s).1 + bytes.length ≤ s.dstSize := by
  obtain ⟨d', hd', h⟩ := (microStep_eq_next s t hbusy).mp h
  obtain rfl : d = d' := Option.some.inj (hd.symm.trans hd')
  rcases h with ⟨hp, rfl⟩ | ⟨hp, hidx, rfl, h⟩ | ⟨hp, hidx, rfl, h⟩ | ⟨hp, hidx, rfl⟩ | ⟨hp, rfl, h⟩ | ⟨hp, rfl, h⟩ |
    ⟨hp, rfl⟩
  · rw [storedAt_of_check hp]
    exact ⟨[], by unfold checkStep; split <;> rfl, rfl, Nat.zero_le _⟩
  · obtain ⟨b0, b1, b2, -, -, -, hfits, rfl⟩ := (encodeChunk_eq_ok _ _).mp h
    rw [storedAt_of_encode_chunk hp hidx]
    exact ⟨_, rfl, rfl, hfits⟩
  · obtain ⟨s0, s1, s2, s3, -, -, -, -, hfits, rfl⟩ := (decodeGroup_eq_ok _ _).mp h
    rw [storedAt_of_decode_group hp hidx]
    exact ⟨_, rfl, rfl, hfits⟩
  · rw [storedAt_of_full_end hp hidx.not_lt]
    exact ⟨[], rfl, rfl, Nat.zero_le _⟩
  · rcases (encodeRemainder_eq_ok _ _).mp h with ⟨hrem, rfl⟩ | ⟨hrem, t0, t1, -, -, hfits, rfl⟩
    · rw [storedAt_of_encode_no_remainder hp hrem]
      exact ⟨[], rfl, rfl, Nat.zero_le _⟩
    · have hlen : ((quadBytes (enc3 ⟨t0, t1, 0x00⟩)).take (s.inputLength % 3 + 1)).length = s.inputLength % 3 + 1 := by
        rw [List.length_take, length_quadBytes]
        omega
      rw [storedAt_of_encode_remainder hp hrem]
      exact ⟨_, rfl, hlen, by rw [hlen]; exact hfits⟩
  · obtain ⟨t0, t1, t2, -, -, -, hfits, rfl⟩ := (decodeRemainderWith_eq_ok _ _ _).mp h
    have hlen : ((tripleBytes (dec4 ⟨t0, t1, t2, Config.filler⟩).bytes).take (3 * (s.inputLength % 4) / 4)).length =
        3 * (s.inputLength % 4) / 4 := by
      rw [List.length_take, length_tripleBytes]
      omega
    rw [storedAt_of_decode_remainder hp]
    exact ⟨_, rfl, hlen, by rw [hlen]; exact hfits⟩
  · rw [storedAt_of_fin hp]
    exact ⟨[], by cases d <;> rfl, rfl, Nat.zero_le _⟩

/-- The place of a store lies inside the required output length (R32). -/
theorem storedAt_le_need (hbusy : s.phase ≠ .idle) : (storedAt d s).1 + (storedAt d s).2 ≤ need d s.inputLength := by
  have hnone : storedAt d s = (0, 0) → (storedAt d s).1 + (storedAt d s).2 ≤ need d s.inputLength := fun h => by
    rw [h]
    exact Nat.zero_le _
  cases hp : s.phase with
  | idle => exact absurd hp hbusy
  | check => exact hnone (storedAt_of_check hp)
  | fin => exact hnone (storedAt_of_fin hp)
  | full =>
    by_cases hidx : s.idx.toNat < fullChunks d s.inputLength
    · cases d with
      | encode =>
        rw [storedAt_of_encode_chunk hp hidx, need_encode, enclen_eq_ceil]
        rw [fullChunks_encode] at hidx
        omega
      | decode =>
        rw [storedAt_of_decode_group hp hidx, need_decode, declen]
        rw [fullChunks_decode] at hidx
        omega
    · exact hnone (storedAt_of_full_end hp hidx)
  | rem =>
    cases d with
    | encode =>
      by_cases hrem : s.inputLength % 3 = 0
      · exact hnone (storedAt_of_encode_no_remainder hp hrem)
      · rw [storedAt_of_encode_remainder hp hrem, need_encode, enclen_eq_chunks_and_remainder, if_neg hrem]
    | decode => rw [storedAt_of_decode_remainder hp, need_decode, declen_eq_groups_and_remainder]

/-! ## What a micro-step leaves in the result registers -/

/-- What `complete` leaves when it reports an error: no output view, and the flag that R20 gives the error (R123, R124). -/
structure ResultInv (status : Status) (rlen : LongLength) (r : Word) (inv : Bool) : Prop where
  error_empty : status ≠ .ok → rlen = 0 ∧ r = 0
  length_error_flag : status = .invalidLength → inv = false
  encoding_error_flag : status = .invalidEncoding → inv = true

theorem resultInv_ok (rlen : LongLength) (r : Word) (inv : Bool) : ResultInv .ok rlen r inv where
  error_empty h := absurd rfl h
  length_error_flag := nofun
  encoding_error_flag := nofun

theorem resultInv_finStep (d : Driver) (s : State) :
    ResultInv (finStep d s).status (finStep d s).rlen (finStep d s).r (finStep d s).inv := by
  cases d with
  | encode => exact resultInv_ok _ _ _
  | decode =>
    cases herr : s.err with
    | true =>
      rw [finStep_decode_invalid herr]
      exact ⟨fun _ => ⟨rfl, rfl⟩, nofun, fun _ => rfl⟩
    | false =>
      rw [finStep_decode_valid herr]
      exact resultInv_ok _ _ _

/-- A micro-step writes the result registers only when it ends the command (R22). -/
theorem microStep_results (hbusy : s.phase ≠ .idle) (h : microStep s = .next t) :
    (t.r = s.r ∧ t.rlen = s.rlen ∧ t.inv = s.inv ∧ t.status = s.status) ∨
      (t.phase = .idle ∧ ResultInv t.status t.rlen t.r t.inv) := by
  obtain ⟨d, -, h⟩ := (microStep_eq_next s t hbusy).mp h
  rcases h with ⟨-, rfl⟩ | ⟨-, -, -, h⟩ | ⟨-, -, -, h⟩ | ⟨-, -, rfl⟩ | ⟨-, -, h⟩ | ⟨-, -, h⟩ | ⟨-, rfl⟩
  · rcases Nat.lt_or_ge s.capacity (need d s.inputLength) with hshort | hroom
    · rw [checkStep_short s d hshort]
      exact .inr ⟨rfl, fun _ => ⟨rfl, rfl⟩, fun _ => rfl, nofun⟩
    · rw [checkStep_room s d hroom]
      exact .inl ⟨rfl, rfl, rfl, rfl⟩
  · obtain ⟨_, _, _, _, _, _, _, rfl⟩ := (encodeChunk_eq_ok _ _).mp h
    exact .inl ⟨rfl, rfl, rfl, rfl⟩
  · obtain ⟨_, _, _, _, _, _, _, _, _, rfl⟩ := (decodeGroup_eq_ok _ _).mp h
    exact .inl ⟨rfl, rfl, rfl, rfl⟩
  · exact .inl ⟨rfl, rfl, rfl, rfl⟩
  · rcases (encodeRemainder_eq_ok _ _).mp h with ⟨_, rfl⟩ | ⟨_, _, _, _, _, _, rfl⟩ <;> exact .inl ⟨rfl, rfl, rfl, rfl⟩
  · obtain ⟨_, _, _, _, _, _, _, rfl⟩ := (decodeRemainderWith_eq_ok _ _ _).mp h
    exact .inl ⟨rfl, rfl, rfl, rfl⟩
  · exact .inr ⟨finStep_phase d s, resultInv_finStep d s⟩

/-- No micro-step past the length check clears the accumulator of a DECODE (R23). -/
theorem microStep_keeps_err (hbusy : s.phase ≠ .idle) (hcheck : s.phase ≠ .check) (hd : driverOf s.cmd = some .decode)
    (h : microStep s = .next t) (herr : s.err = true) : t.err = true := by
  obtain ⟨d, hd', h⟩ := (microStep_eq_next s t hbusy).mp h
  obtain rfl : .decode = d := Option.some.inj (hd.symm.trans hd')
  rcases h with ⟨hp, -⟩ | ⟨-, -, he, -⟩ | ⟨-, -, -, h⟩ | ⟨-, -, rfl⟩ | ⟨-, he, -⟩ | ⟨-, -, h⟩ | ⟨-, rfl⟩
  · exact absurd hp hcheck
  · cases he
  · obtain ⟨_, _, _, _, _, _, _, _, _, rfl⟩ := (decodeGroup_eq_ok _ _).mp h
    simp [herr]
  · exact herr
  · cases he
  · obtain ⟨_, _, _, _, _, _, _, rfl⟩ := (decodeRemainderWith_eq_ok _ _ _).mp h
    simp [herr]
  · exact herr

end

/-! ## The obligations -/

/-- Settles O35: the frame is one equation, the results change at the end only, and a store stays inside its place. -/
theorem microStepChangesOnlyItsChunk : Obligations.MicroStepChangesOnlyItsChunk := by
  unfold Obligations.MicroStepChangesOnlyItsChunk
  intro d s t hbusy hd hw h
  rw [step_eq_microStep_of_busy hw hbusy] at h
  have hresults := microStep_results hbusy h
  obtain ⟨bytes, hdst, hlen, -⟩ := microStep_stores hbusy hd h
  obtain ⟨r, rlen, inv, status, phase, idx, err, dst, rfl⟩ := microStep_frame hbusy h
  refine ⟨rfl, rfl, rfl, rfl, rfl, rfl, rfl, fun _ => rfl, rfl, rfl, rfl, rfl, rfl, fun hidle => ?_, fun j hj => ?_⟩
  · exact hresults.resolve_right fun hend => hidle hend.1
  · rw [hdst]
    exact memRead_memWriteAll_outside _ _ _ _ (by rw [hlen]; exact hj)

/-- Settles O36: past the length check each step of DECODE ORs into the accumulator or leaves it alone. -/
theorem accumulatorIsNeverCleared : Obligations.AccumulatorIsNeverCleared := by
  unfold Obligations.AccumulatorIsNeverCleared
  intro s t hcmd hp hw h herr
  have hbusy : s.phase ≠ .idle := by rcases hp with hp | hp | hp <;> simp [hp]
  have hcheck : s.phase ≠ .check := by rcases hp with hp | hp | hp <;> simp [hp]
  rw [step_eq_microStep_of_busy hw hbusy] at h
  exact microStep_keeps_err hbusy hcheck ((driverOf_eq_decode s).mpr hcmd) h herr

/-- Settles O39: a micro-step stores at its place only, which ends at the required length at the latest. -/
theorem destinationBeyondNeedIsNeverWritten : Obligations.DestinationBeyondNeedIsNeverWritten := by
  unfold Obligations.DestinationBeyondNeedIsNeverWritten
  intro d s t _ hbusy hd hw h j hj
  rw [step_eq_microStep_of_busy hw hbusy] at h
  obtain ⟨bytes, hdst, hlen, -⟩ := microStep_stores hbusy hd h
  have hplace := storedAt_le_need (d := d) hbusy
  rw [hdst]
  exact memRead_memWriteAll_outside _ _ _ _ (.inr (by omega))

end Sys2Proof.Machine

/-! What a micro-step depends on (R31, R105, R140): of `SRC` on the bytes of the input and of no other, of the host's script not at
all, of the filler not at all; and what it answers when a byte it reads has not been written. -/

namespace Sys2Proof.Machine

/-! ## The bytes of the input -/

/-- The outcome with its next state, if it has one, changed. -/
def mapNext (f : State → State) : Out → Out
  | .next s => .next (f s)
  | .fault e => .fault e
  | .refused e => .refused e

theorem toOut_map (f : State → State) (x : Except Refusal State) : toOut (f <$> x) = mapNext f (toOut x) := by
  cases x <;> rfl

/-- The state with another source memory and another script for its host. -/
def withSource (m : Memory) (r : List HostMove) (s : State) : State := { s with src := m, script := r }

section
variable {s : State} {m : Memory} {r : List HostMove}

theorem writeDst_withSource (s : State) (base : Nat) (bytes : List Byte) :
    writeDst (withSource m r s) base bytes = withSource m r <$> writeDst s base bytes := by
  unfold writeDst
  rw [show (withSource m r s).dstSize = s.dstSize from rfl]
  split <;> rfl

/-- The memory `m` holds the same input as `SRC` does (R31). -/
def SameInput (m : Memory) (s : State) : Prop := ∀ j, j < s.inputLength → memRead m j = memRead s.src j

theorem readSrc_withSource (h : SameInput m s) {j : Nat} (hj : j < s.inputLength) :
    readSrc (withSource m r s) j = readSrc s j := by
  unfold readSrc
  rw [show (withSource m r s).srcSize = s.srcSize from rfl, show (withSource m r s).src = m from rfl, h j hj]

theorem readSrcOr_withSource (h : SameInput m s) {real : Bool} {j : Nat} (hj : real = true → j < s.inputLength) (p : Byte) :
    readSrcOr real (withSource m r s) j p = readSrcOr real s j p := by
  cases real with
  | true => exact readSrc_withSource h (hj rfl)
  | false => rfl

theorem encodeChunk_withSource (h : SameInput m s) (hidx : s.idx.toNat < s.inputLength / 3) :
    encodeChunk (withSource m r s) = withSource m r <$> encodeChunk s := by
  have h0 := readSrc_withSource (r := r) h (j := 3 * s.idx.toNat) (by omega)
  have h1 := readSrc_withSource (r := r) h (j := 3 * s.idx.toNat + 1) (by omega)
  have h2 := readSrc_withSource (r := r) h (j := 3 * s.idx.toNat + 2) (by omega)
  have hi : (withSource m r s).idx = s.idx := rfl
  simp only [encodeChunk, hi, h0, h1, h2, writeDst_withSource, map_bind, map_pure, bind_map_left]
  rfl

theorem decodeGroup_withSource (h : SameInput m s) (hidx : s.idx.toNat < s.inputLength / 4) :
    decodeGroup (withSource m r s) = withSource m r <$> decodeGroup s := by
  have h0 := readSrc_withSource (r := r) h (j := 4 * s.idx.toNat) (by omega)
  have h1 := readSrc_withSource (r := r) h (j := 4 * s.idx.toNat + 1) (by omega)
  have h2 := readSrc_withSource (r := r) h (j := 4 * s.idx.toNat + 2) (by omega)
  have h3 := readSrc_withSource (r := r) h (j := 4 * s.idx.toNat + 3) (by omega)
  have hi : (withSource m r s).idx = s.idx := rfl
  simp only [decodeGroup, hi, h0, h1, h2, h3, writeDst_withSource, map_bind, map_pure, bind_map_left]
  rfl

theorem encodeRemainder_of_none (hrem : s.inputLength % 3 = 0) : encodeRemainder s = .ok { s with phase := .fin } :=
  if_pos hrem

/-- The remainder of ENCODE where there is one, as a sequence of accesses (R92, R115). -/
theorem encodeRemainder_of_some (hrem : s.inputLength % 3 ≠ 0) :
    encodeRemainder s = (do
      let t0 ← readSrc s (3 * (s.inputLength / 3))
      let t1 ← readSrcOr (s.inputLength % 3 == 2) s (3 * (s.inputLength / 3) + 1) 0x00
      let t ← writeDst s (4 * (s.inputLength / 3)) ((quadBytes (enc3 ⟨t0, t1, 0x00⟩)).take (s.inputLength % 3 + 1))
      return { t with phase := .fin }) :=
  if_neg hrem

theorem encodeRemainder_withSource (h : SameInput m s) :
    encodeRemainder (withSource m r s) = withSource m r <$> encodeRemainder s := by
  by_cases hrem : s.inputLength % 3 = 0
  · rw [encodeRemainder_of_none hrem]
    exact encodeRemainder_of_none (s := withSource m r s) hrem
  · have h0 := readSrc_withSource (r := r) h (j := 3 * (s.inputLength / 3)) (by omega)
    have h1 := readSrcOr_withSource (r := r) h (real := s.inputLength % 3 == 2) (j := 3 * (s.inputLength / 3) + 1)
      (by rw [beq_iff_eq]; omega) 0x00
    have hn : (withSource m r s).inputLength = s.inputLength := rfl
    rw [encodeRemainder_of_some hrem, encodeRemainder_of_some (s := withSource m r s) hrem]
    simp only [hn, h0, h1, writeDst_withSource, map_bind, map_pure, bind_map_left]
    rfl

theorem decodeRemainder_withSource (h : SameInput m s) :
    decodeRemainder (withSource m r s) = withSource m r <$> decodeRemainder s := by
  have hn : (withSource m r s).inputLength = s.inputLength := rfl
  have h0 := readSrcOr_withSource (r := r) h (real := 1 ≤ s.inputLength % 4) (j := 4 * (s.inputLength / 4))
    (by rw [decide_eq_true_iff]; omega) Config.filler
  have h1 := readSrcOr_withSource (r := r) h (real := 2 ≤ s.inputLength % 4) (j := 4 * (s.inputLength / 4) + 1)
    (by rw [decide_eq_true_iff]; omega) Config.filler
  have h2 := readSrcOr_withSource (r := r) h (real := s.inputLength % 4 == 3) (j := 4 * (s.inputLength / 4) + 2)
    (by rw [beq_iff_eq]; omega) Config.filler
  simp only [decodeRemainder, decodeRemainderWith, hn, fullChunks_decode, remainder_decode, h0, h1, h2,
    writeDst_withSource, map_bind, map_pure, bind_map_left]
  rfl

theorem checkStep_withSource (d : Driver) (s : State) :
    checkStep d (withSource m r s) = withSource m r (checkStep d s) := by
  have hn : (withSource m r s).inputLength = s.inputLength := rfl
  have hc : (withSource m r s).capacity = s.capacity := rfl
  simp only [checkStep, hn, hc]
  by_cases hshort : s.capacity < need d s.inputLength
  · simp only [if_pos hshort]
    rfl
  · simp only [if_neg hshort]
    rfl

theorem fullStep_withSource (d : Driver) (h : SameInput m s) :
    fullStep d (withSource m r s) = mapNext (withSource m r) (fullStep d s) := by
  have hn : (withSource m r s).inputLength = s.inputLength := rfl
  have hi : (withSource m r s).idx = s.idx := rfl
  simp only [fullStep, hn, hi]
  by_cases hidx : s.idx.toNat < fullChunks d s.inputLength
  · simp only [if_pos hidx, ← toOut_map]
    cases d with
    | encode => exact congrArg toOut (encodeChunk_withSource h hidx)
    | decode => exact congrArg toOut (decodeGroup_withSource h hidx)
  · by_cases hend : s.idx.toNat = fullChunks d s.inputLength
    · simp only [if_neg hidx, if_pos hend]
      rfl
    · simp only [if_neg hidx, if_neg hend]
      rfl

theorem remStep_withSource (d : Driver) (h : SameInput m s) :
    remStep d (withSource m r s) = mapNext (withSource m r) (remStep d s) := by
  cases d with
  | encode => exact (congrArg toOut (encodeRemainder_withSource h)).trans (toOut_map _ _)
  | decode => exact (congrArg toOut (decodeRemainder_withSource h)).trans (toOut_map _ _)

theorem finStep_withSource (d : Driver) (s : State) : finStep d (withSource m r s) = withSource m r (finStep d s) := by
  cases d <;> rfl

/-- A micro-step does the same with any source memory that holds the same input, and whatever the host is yet to do. -/
theorem microStep_withSource (h : SameInput m s) (r : List HostMove) :
    microStep (withSource m r s) = mapNext (withSource m r) (microStep s) := by
  have hphase : (withSource m r s).phase = s.phase := rfl
  have hcmd : (withSource m r s).cmd = s.cmd := rfl
  unfold microStep
  rw [hphase, hcmd]
  cases s.phase with
  | idle => rfl
  | check =>
    cases driverOf s.cmd with
    | none => rfl
    | some d => exact congrArg Host.Outcome.next (checkStep_withSource d s)
  | full =>
    cases driverOf s.cmd with
    | none => rfl
    | some d => exact fullStep_withSource d h
  | rem =>
    cases driverOf s.cmd with
    | none => rfl
    | some d => exact remStep_withSource d h
  | fin =>
    cases driverOf s.cmd with
    | none => rfl
    | some d => exact congrArg Host.Outcome.next (finStep_withSource d s)

/-- A byte written at or above `N` is no byte of the input. -/
theorem sameInput_memWrite {i : Nat} (hi : s.inputLength ≤ i) (b : Byte) : SameInput (memWrite s.src i b) s :=
  fun j hj => memRead_memWrite_other _ _ _ _ (by omega)

/-- What the host is yet to do has no part in a micro-step. -/
theorem microStep_withScript (s : State) (r : List HostMove) :
    microStep { s with script := r } = mapNext (fun t => { t with src := s.src, script := r }) (microStep s) :=
  microStep_withSource (s := s) (m := s.src) (fun _ _ => rfl) r

end

/-- Settles O38: a memory with another byte at `N` or above holds the same input, and no micro-step changes `SRC`. -/
theorem sourceBeyondInputIsNeverRead : Obligations.SourceBeyondInputIsNeverRead := by
  unfold Obligations.SourceBeyondInputIsNeverRead
  intro s i b hbusy hw hi
  have hstep : step s = microStep s := step_eq_microStep_of_busy hw hbusy
  have hstep' : step { s with src := memWrite s.src i b } =
      mapNext (withSource (memWrite s.src i b) s.script) (microStep s) := by
    rw [← microStep_withSource (sameInput_memWrite hi b)]
    exact step_eq_microStep_of_busy hw hbusy
  rw [hstep', hstep]
  refine ⟨fun t ht => ?_, fun e he => by rw [he]; rfl⟩
  obtain ⟨hsrc, -, -, -, -, hscript, -⟩ := microStep_keeps s t hbusy ht
  rw [ht, hsrc, ← hscript]
  rfl

/-! ## The filler -/

/-- The remainder of DECODE with the number of symbols left as a variable (R102, R116). -/
theorem decodeRemainderWith_of_rem (filler : Byte) {s : State} {k : Nat} (hk : s.inputLength % 4 = k) :
    decodeRemainderWith filler s = (do
      let t0 ← readSrcOr (1 ≤ k) s (4 * (s.inputLength / 4)) filler
      let t1 ← readSrcOr (2 ≤ k) s (4 * (s.inputLength / 4) + 1) filler
      let t2 ← readSrcOr (k == 3) s (4 * (s.inputLength / 4) + 2) filler
      let t ← writeDst s (3 * (s.inputLength / 4))
        ((tripleBytes (dec4 ⟨t0, t1, t2, filler⟩).bytes).take (remainderBytes k))
      return { t with
        err := accumulate (accumulate s.err (loneSymbol k)) (dec4 ⟨t0, t1, t2, filler⟩).invalid, phase := .fin }) := by
  subst hk
  rfl

/-- The first byte of a group is made of its first two symbols (R83). -/
theorem dec4_b0_congr (s0 s1 s2 s3 s2' s3' : Byte) : (dec4 ⟨s0, s1, s2, s3⟩).bytes.b0 = (dec4 ⟨s0, s1, s2', s3'⟩).bytes.b0 := by
  simp only [dec4, dec4At]

/-- The second byte of a group is made of its second and its third symbol (R83). -/
theorem dec4_b1_congr (s0 s1 s2 s3 s3' : Byte) : (dec4 ⟨s0, s1, s2, s3⟩).bytes.b1 = (dec4 ⟨s0, s1, s2, s3'⟩).bytes.b1 := by
  simp only [dec4, dec4At]

/-- Settles O37, by the number of symbols left: the bytes kept are made of the symbols alone, and a filler of the alphabet has no
part in the signal. -/
theorem fillerIsUnobservable : Obligations.FillerIsUnobservable := by
  unfold Obligations.FillerIsUnobservable
  intro filler s h
  rw [decodeRemainder]
  obtain hk | hk | hk | hk : s.inputLength % 4 = 0 ∨ s.inputLength % 4 = 1 ∨ s.inputLength % 4 = 2 ∨
    s.inputLength % 4 = 3 := by omega
  all_goals
    rw [decodeRemainderWith_of_rem filler hk, decodeRemainderWith_of_rem Config.filler hk]
    simp only [dec4_invalid, quadInAlphabet, remainderBytes, tripleBytes, Nat.reduceLeDiff, Nat.reduceMul, Nat.reduceDiv,
      Nat.reduceBEq, decide_true, decide_false, readSrcOr_true, readSrcOr_false, ok_bind, h, inAlphabet_filler,
      List.take_zero, List.take_succ_cons]
  · simp only [dec4_b0_congr _ _ filler filler Config.filler Config.filler]
  · simp only [fun s0 s1 s2 => dec4_b0_congr s0 s1 s2 filler s2 Config.filler, dec4_b1_congr _ _ _ filler Config.filler]

/-! ## Bytes that nothing has written -/

section
variable {s : State} {d : Driver} {α : Type}

/-- A read that finds nothing refuses what it is part of; so does what follows a read, if that is refused for the same reason. -/
theorem readSrc_bind_refused {i : Nat} {f : Byte → Except Refusal α} (hi : i < s.srcSize)
    (h : memRead s.src i = none ∨ ∀ b, f b = .error .unwrittenSource) : (readSrc s i >>= f) = .error .unwrittenSource := by
  rcases readSrc_cases s i hi with ⟨b, hread, hb⟩ | ⟨hread, -⟩
  · rw [hread, ok_bind]
    exact h.resolve_left (by simp [hb]) b
  · rw [hread, error_bind]

theorem readSrcOr_bind_refused {real : Bool} {i : Nat} {p : Byte} {f : Byte → Except Refusal α}
    (hi : real = true → i < s.srcSize)
    (h : (real = true ∧ memRead s.src i = none) ∨ ∀ b, f b = .error .unwrittenSource) :
    (readSrcOr real s i p >>= f) = .error .unwrittenSource := by
  cases real with
  | true => exact readSrc_bind_refused (hi rfl) (h.imp_left And.right)
  | false => exact h.resolve_left (by simp) p

theorem encodeChunk_refused (hin : 3 * s.idx.toNat + 3 ≤ s.srcSize) {j : Nat} (hj : j < 3)
    (hnone : memRead s.src (3 * s.idx.toNat + j) = none) : encodeChunk s = .error .unwrittenSource := by
  have hhole : memRead s.src (3 * s.idx.toNat) = none ∨ memRead s.src (3 * s.idx.toNat + 1) = none ∨
      memRead s.src (3 * s.idx.toNat + 2) = none := by
    interval_cases j
    · exact .inl hnone
    · exact .inr (.inl hnone)
    · exact .inr (.inr hnone)
  exact readSrc_bind_refused (by omega) (hhole.imp_right fun hhole _ =>
    readSrc_bind_refused (by omega) (hhole.imp_right fun hhole _ => readSrc_bind_refused (by omega) (.inl hhole)))

theorem decodeGroup_refused (hin : 4 * s.idx.toNat + 4 ≤ s.srcSize) {j : Nat} (hj : j < 4)
    (hnone : memRead s.src (4 * s.idx.toNat + j) = none) : decodeGroup s = .error .unwrittenSource := by
  have hhole : memRead s.src (4 * s.idx.toNat) = none ∨ memRead s.src (4 * s.idx.toNat + 1) = none ∨
      memRead s.src (4 * s.idx.toNat + 2) = none ∨ memRead s.src (4 * s.idx.toNat + 3) = none := by
    interval_cases j
    · exact .inl hnone
    · exact .inr (.inl hnone)
    · exact .inr (.inr (.inl hnone))
    · exact .inr (.inr (.inr hnone))
  exact readSrc_bind_refused (by omega) (hhole.imp_right fun hhole _ =>
    readSrc_bind_refused (by omega) (hhole.imp_right fun hhole _ =>
      readSrc_bind_refused (by omega) (hhole.imp_right fun hhole _ => readSrc_bind_refused (by omega) (.inl hhole))))

theorem encodeRemainder_refused (hin : s.inputLength ≤ s.srcSize) {j : Nat} (hj : j < s.inputLength % 3)
    (hnone : memRead s.src (3 * (s.inputLength / 3) + j) = none) : encodeRemainder s = .error .unwrittenSource := by
  rw [encodeRemainder_of_some (by omega)]
  have hhole : memRead s.src (3 * (s.inputLength / 3)) = none ∨
      ((s.inputLength % 3 == 2) = true ∧ memRead s.src (3 * (s.inputLength / 3) + 1) = none) := by
    have hj2 : j < 2 := by omega
    interval_cases j
    · exact .inl hnone
    · exact .inr ⟨by rw [beq_iff_eq]; omega, hnone⟩
  exact readSrc_bind_refused (by omega) (hhole.imp_right fun hhole _ =>
    readSrcOr_bind_refused (by rw [beq_iff_eq]; omega) (.inl hhole))

theorem decodeRemainder_refused (hin : s.inputLength ≤ s.srcSize) {j : Nat} (hj : j < s.inputLength % 4)
    (hnone : memRead s.src (4 * (s.inputLength / 4) + j) = none) : decodeRemainder s = .error .unwrittenSource := by
  have hhole : (decide (1 ≤ s.inputLength % 4) = true ∧ memRead s.src (4 * (s.inputLength / 4)) = none) ∨
      (decide (2 ≤ s.inputLength % 4) = true ∧ memRead s.src (4 * (s.inputLength / 4) + 1) = none) ∨
      ((s.inputLength % 4 == 3) = true ∧ memRead s.src (4 * (s.inputLength / 4) + 2) = none) := by
    have hj3 : j < 3 := by omega
    interval_cases j
    · exact .inl ⟨by rw [decide_eq_true_iff]; omega, hnone⟩
    · exact .inr (.inl ⟨by rw [decide_eq_true_iff]; omega, hnone⟩)
    · exact .inr (.inr ⟨by rw [beq_iff_eq]; omega, hnone⟩)
  rw [decodeRemainder, decodeRemainderWith_of_rem _ rfl]
  exact readSrcOr_bind_refused (by rw [decide_eq_true_iff]; omega) (hhole.imp_right fun hhole _ =>
    readSrcOr_bind_refused (by rw [decide_eq_true_iff]; omega) (hhole.imp_right fun hhole _ =>
      readSrcOr_bind_refused (by rw [beq_iff_eq]; omega) (.inl hhole)))

theorem microStep_of_full (hp : s.phase = .full) (hd : driverOf s.cmd = some d) : microStep s = fullStep d s := by
  rw [microStep, hp, hd]

theorem fullStep_of_encode_chunk (hidx : s.idx.toNat < fullChunks .encode s.inputLength) :
    fullStep .encode s = toOut (encodeChunk s) := if_pos hidx

theorem fullStep_of_decode_group (hidx : s.idx.toNat < fullChunks .decode s.inputLength) :
    fullStep .decode s = toOut (decodeGroup s) := if_pos hidx

theorem microStep_of_rem (hp : s.phase = .rem) (hd : driverOf s.cmd = some d) : microStep s = remStep d s := by
  rw [microStep, hp, hd]

/-- The driver of a busy block in the invariant is the one in `CMD`. -/
theorem Inv.driverInv (h : Inv s) (hbusy : s.phase ≠ .idle) (hd : driverOf s.cmd = some d) : DriverInv d s := by
  obtain ⟨d', hd', hinv⟩ := h.driver hbusy
  obtain rfl : d = d' := Option.some.inj (hd.symm.trans hd')
  exact hinv

end

/-- Settles O40, by the phases that read: each read of a chunk or a remainder lies inside `SRC`, so that it finds a byte or is
refused for the reason stated. -/
theorem unwrittenSourceIsRefused : Obligations.UnwrittenSourceIsRefused := by
  unfold Obligations.UnwrittenSourceIsRefused
  intro d s j hinv hbusy hd hw hj hnone
  have hin := (hinv.driverInv hbusy hd).input_fits
  rw [step_eq_microStep_of_busy hw hbusy]
  cases hp : s.phase with
  | idle => exact absurd hp hbusy
  | check | fin => cases d <;> simp [chunkReads, hp] at hj
  | full =>
    rw [microStep_of_full hp hd]
    by_cases hidx : s.idx.toNat < fullChunks d s.inputLength
    · cases d with
      | encode =>
        simp only [chunkReads, hp, if_pos hidx] at hj hnone
        rw [fullStep_of_encode_chunk hidx]
        rw [fullChunks_encode] at hidx
        exact congrArg toOut (encodeChunk_refused (by omega) hj hnone)
      | decode =>
        simp only [chunkReads, hp, if_pos hidx] at hj hnone
        rw [fullStep_of_decode_group hidx]
        rw [fullChunks_decode] at hidx
        exact congrArg toOut (decodeGroup_refused (by omega) hj hnone)
    · cases d <;>
      · simp only [chunkReads, hp, if_neg hidx] at hj
        exact absurd hj (Nat.not_lt_zero j)
  | rem =>
    rw [microStep_of_rem hp hd]
    cases d with
    | encode =>
      simp only [chunkReads, hp, remainder_encode, fullChunks_encode] at hj hnone
      exact congrArg toOut (encodeRemainder_refused hin hj hnone)
    | decode =>
      simp only [chunkReads, hp, remainder_decode, fullChunks_decode] at hj hnone
      exact congrArg toOut (decodeRemainder_refused hin hj hnone)

end Sys2Proof.Machine

/-! What each move of the host does (R19, R34, R56, R137, R138, R144 to R146), and the lines of the host notation (R56). -/

namespace Sys2Proof.Machine

/-! ## The moves -/

section
variable {s t : State} {rest : List HostMove}

theorem step_setA {v : Word} (h : s.script = .setA v :: rest) :
    step s = whenIdle .operandWriteWhileBusy s (.next { s with a := v, aWritten := true, script := rest }) := step_cons s _ _ h

theorem step_setN {v : Length} (h : s.script = .setN v :: rest) :
    step s = whenIdle .operandWriteWhileBusy s (.next { s with n := v, nWritten := true, script := rest }) := step_cons s _ _ h

theorem step_setCap {v : Length} (h : s.script = .setCap v :: rest) :
    step s = whenIdle .operandWriteWhileBusy s (.next { s with cap := v, capWritten := true, script := rest }) := step_cons s _ _ h

theorem step_writeSrc {i : Nat} {b : Byte} (h : s.script = .writeSrc i b :: rest) :
    step s = whenIdle .operandWriteWhileBusy s (toOut (writeSrc { s with script := rest } i b)) :=
  step_cons s _ _ h

theorem step_writeDst {i : Nat} {b : Byte} (h : s.script = .writeDst i b :: rest) :
    step s = whenIdle .accessWhileBusy s (toOut (writeDst { s with script := rest } i [b])) :=
  step_cons s _ _ h

theorem step_issue {op : Code} (h : s.script = .issue op :: rest) :
    step s = exec (decodePort op) { s with script := rest } := step_cons s _ _ h

theorem step_wait (h : s.script = .wait :: rest) :
    step s = if s.phase = .idle then .next { s with script := rest } else microStep s := step_cons s _ _ h

theorem step_tick (h : s.script = .tick :: rest) : step s = microStep { s with script := rest } := step_cons s _ _ h

theorem step_readBusy (h : s.script = .read .busy :: rest) : step s = hostRead { s with script := rest } .busy :=
  step_cons s _ _ h

theorem step_read {what : ReadTarget} (h : s.script = .read what :: rest) (hwhat : what ≠ .busy) :
    step s = whenIdle .accessWhileBusy s (hostRead { s with script := rest } what) := by
  cases what with
  | busy => exact absurd rfl hwhat
  | a | n | cap | r | rlen | inv | status | src | dst => exact step_cons s _ _ h

theorem step_reset (h : s.script = .reset :: rest) : step s = .next (resetBlock { s with script := rest }) :=
  step_cons s _ _ h

theorem microStep_of_idle (h : s.phase = .idle) : microStep s = .next s := by
  rw [microStep, h]

/-! ## Writes and reads of an idle block -/

theorem step_writeSrc_inside {i : Nat} {b : Byte} (hs : s.script = .writeSrc i b :: rest) (h : s.phase = .idle)
    (hi : i < s.srcSize) : step s = .next { s with src := memWrite s.src i b, script := rest } := by
  rw [step_writeSrc hs, whenIdle_idle _ _ _ h, writeSrc, if_pos (show i < s.srcSize from hi)]
  rfl

theorem step_writeDst_inside {i : Nat} {b : Byte} (hs : s.script = .writeDst i b :: rest) (h : s.phase = .idle)
    (hi : i < s.dstSize) : step s = .next { s with dst := memWrite s.dst i b, script := rest } := by
  rw [step_writeDst hs, whenIdle_idle _ _ _ h, writeDst_of _ _ _ (show i + 1 ≤ s.dstSize from hi)]
  rfl

theorem writeSrc_outside {i : Nat} (b : Byte) (hi : s.srcSize ≤ i) : writeSrc s i b = .error .noSuchLocation := by
  rw [writeSrc, if_neg (by omega)]

theorem writeDst_outside {i : Nat} (b : Byte) (hi : s.dstSize ≤ i) : writeDst s i [b] = .error .noSuchLocation := by
  rw [writeDst, List.length_singleton, if_neg (by omega)]

theorem readValue_withScript (s : State) (rest : List HostMove) (what : ReadTarget) :
    readValue { s with script := rest } what = readValue s what := by
  cases what <;> rfl

theorem hostRead_of_ok {what : ReadTarget} {v : Nat} (h : readValue s what = .ok v) :
    hostRead s what = .next { s with seen := ⟨what, v⟩ :: s.seen } := by
  rw [hostRead, h]

theorem hostRead_of_error {what : ReadTarget} {e : Refusal} (h : readValue s what = .error e) :
    hostRead s what = .refused e := by
  rw [hostRead, h]

/-- Of an idle block the host may read everything (R19). -/
theorem step_read_of_idle {what : ReadTarget} (hs : s.script = .read what :: rest) (h : s.phase = .idle) :
    step s = hostRead { s with script := rest } what := by
  by_cases hwhat : what = .busy
  · subst hwhat
    exact step_readBusy hs
  · rw [step_read hs hwhat, whenIdle_idle _ _ _ h]

theorem step_read_ok {what : ReadTarget} {v : Nat} (hs : s.script = .read what :: rest) (h : s.phase = .idle)
    (hv : readValue s what = .ok v) : step s = .next { s with seen := ⟨what, v⟩ :: s.seen, script := rest } := by
  rw [step_read_of_idle hs h, hostRead_of_ok ((readValue_withScript s rest what).trans hv)]

theorem step_read_error {what : ReadTarget} {e : Refusal} (hs : s.script = .read what :: rest) (h : s.phase = .idle)
    (he : readValue s what = .error e) : step s = .refused e := by
  rw [step_read_of_idle hs h, hostRead_of_error ((readValue_withScript s rest what).trans he)]

theorem readSrc_of_none {i : Nat} (hi : i < s.srcSize) (h : memRead s.src i = none) :
    readSrc s i = .error .unwrittenSource := by
  rw [readSrc, if_pos hi, h]

theorem readSrc_outside {i : Nat} (hi : s.srcSize ≤ i) : readSrc s i = .error .noSuchLocation := by
  rw [readSrc, if_neg (by omega)]

theorem readDst_of {i : Nat} {b : Byte} (hi : i < s.dstSize) (h : memRead s.dst i = some b) : readDst s i = .ok b :=
  (readDst_eq_ok s i b).mpr ⟨hi, h⟩

theorem readDst_of_none {i : Nat} (hi : i < s.dstSize) (h : memRead s.dst i = none) :
    readDst s i = .error .unwrittenDestination := by
  rw [readDst, if_pos hi, h]

theorem readDst_outside {i : Nat} (hi : s.dstSize ≤ i) : readDst s i = .error .noSuchLocation := by
  rw [readDst, if_neg (by omega)]

theorem readValue_src {i : Nat} : readValue s (.src i) = (readSrc s i).map BitVec.toNat := rfl

theorem readValue_dst {i : Nat} : readValue s (.dst i) = (readDst s i).map BitVec.toNat := rfl

end

/-! ## The obligations -/

/-- Settles O56: an idle block has no micro-step, and a wait or a tick leaves the script. -/
theorem idleBlockDoesNothing : Obligations.IdleBlockDoesNothing := by
  unfold Obligations.IdleBlockDoesNothing
  intro s h
  refine ⟨fun hs => ?_, fun rest hs => ?_, fun rest hs => ?_⟩
  · rw [step_nil s hs, microStep_of_idle h]
  · rw [step_wait hs, if_pos h]
  · rw [step_tick hs, microStep_of_idle (s := { s with script := rest }) h]

/-- Settles O57: each write is its move's effect on an idle block, and a byte written reads as itself and no other. -/
theorem hostWritesLand : Obligations.HostWritesLand := by
  unfold Obligations.HostWritesLand
  intro s rest h
  refine ⟨fun v hs => ⟨_, ?_, rfl, rfl⟩, fun v hs => ⟨_, ?_, rfl, rfl⟩, fun v hs => ⟨_, ?_, rfl, rfl⟩,
    fun i b hs hi => ⟨_, step_writeSrc_inside hs h hi, memRead_memWrite_same _ _ _,
      fun j hj => memRead_memWrite_other _ _ _ _ hj.symm⟩,
    fun i b hs hi => ⟨_, step_writeDst_inside hs h hi, memRead_memWrite_same _ _ _,
      fun j hj => memRead_memWrite_other _ _ _ _ hj.symm⟩, fun i b hs hi => ?_, fun i b hs hi => ?_⟩
  · rw [step_setA hs, whenIdle_idle _ _ _ h]
  · rw [step_setN hs, whenIdle_idle _ _ _ h]
  · rw [step_setCap hs, whenIdle_idle _ _ _ h]
  · rw [step_writeSrc hs, whenIdle_idle _ _ _ h, writeSrc_outside (s := { s with script := rest }) b hi, toOut_error]
  · rw [step_writeDst hs, whenIdle_idle _ _ _ h, writeDst_outside (s := { s with script := rest }) b hi, toOut_error]

/-- Settles O58, target by target: the value is the register's, or the byte's that has been written. -/
theorem hostReadsChangeNothing : Obligations.HostReadsChangeNothing := by
  unfold Obligations.HostReadsChangeNothing
  intro s what rest h hs
  refine ⟨fun v hv => step_read_ok hs h hv, ?_, ?_, ?_, ?_, ?_, ?_, ?_, ?_, ?_, ?_, ?_, ?_, ?_, ?_, ?_, ?_⟩
  · rintro rfl
    exact ⟨rfl, fun hw => by rw [readValue, operandA_written s hw]⟩
  · rintro rfl
    exact ⟨rfl, fun hw => by rw [readValue, inputLength_written s hw]⟩
  · rintro rfl
    exact ⟨rfl, fun hw => by rw [readValue, capacity_written s hw]⟩
  · rintro rfl
    rfl
  · rintro rfl
    rfl
  · rintro rfl
    rfl
  · rintro rfl hok
    rw [readValue, hok]
    rfl
  · rintro rfl hlength
    rw [readValue, hlength]
    rfl
  · rintro rfl hencoding
    rw [readValue, hencoding]
    rfl
  · rintro rfl
    rw [readValue, h]
    rfl
  · rintro i b rfl hi hb
    rw [readValue_dst, readDst_of hi hb]
    rfl
  · rintro i b rfl hi hb
    rw [readValue_src, readSrc_of s i b hi hb]
    rfl
  · rintro i rfl hi hnone
    exact step_read_error hs h (by rw [readValue_dst, readDst_of_none hi hnone]; rfl)
  · rintro i rfl hi hnone
    exact step_read_error hs h (by rw [readValue_src, readSrc_of_none hi hnone]; rfl)
  · rintro i rfl hi
    exact step_read_error hs h (by rw [readValue_dst, readDst_outside hi]; rfl)
  · rintro i rfl hi
    exact step_read_error hs h (by rw [readValue_src, readSrc_outside hi]; rfl)

/-- Settles O59, move by move: each is an action for an idle block only, but the reading of `busy`. -/
theorem busyBlockRefusesTheHost : Obligations.BusyBlockRefusesTheHost := by
  unfold Obligations.BusyBlockRefusesTheHost
  intro s m rest hbusy hs
  refine ⟨?_, ?_, ?_, ?_, ?_, ?_⟩
  · rintro v (rfl | rfl | rfl)
    · rw [step_setA hs, whenIdle_busy _ _ _ hbusy]
    · rw [step_setN hs, whenIdle_busy _ _ _ hbusy]
    · rw [step_setCap hs, whenIdle_busy _ _ _ hbusy]
  · rintro i b rfl
    rw [step_writeSrc hs, whenIdle_busy _ _ _ hbusy]
  · rintro i b rfl
    rw [step_writeDst hs, whenIdle_busy _ _ _ hbusy]
  · rintro what rfl hwhat
    rw [step_read hs hwhat, whenIdle_busy _ _ _ hbusy]
  · rintro op rfl
    rw [step_issue hs, exec_of_busy (s := { s with script := rest }) _ hbusy]
  · rintro rfl
    have hvalue : readValue { s with script := rest } .busy = .ok 1 := by
      rw [readValue, decide_eq_true hbusy]
      rfl
    rw [step_readBusy hs, hostRead_of_ok hvalue]

/-- Settles O4: the rows of R139's table. -/
theorem resetLeavesTheSpecifiedValues : Obligations.ResetLeavesTheSpecifiedValues := by
  unfold Obligations.ResetLeavesTheSpecifiedValues
  exact ⟨rfl, rfl, rfl, rfl, rfl, rfl, rfl, rfl, rfl, rfl, rfl, fun _ => ⟨rfl, rfl⟩⟩

/-- Settles O5: the host's move is the block's reset, whatever the phase. -/
theorem resetAbandonsACommand : Obligations.ResetAbandonsACommand := by
  unfold Obligations.ResetAbandonsACommand
  intro s rest hs
  exact ⟨_, step_reset hs, rfl, rfl, rfl, rfl, rfl, rfl, rfl, rfl, fun _ => rfl, fun _ => rfl, rfl, rfl, rfl, rfl, rfl, rfl,
    rfl, rfl⟩

/-! ## The lines -/

/-- A line that writes bytes at ascending indexes takes one step a byte; `after` is the state with a memory and a script. -/
theorem runSteps_movesAscending {write : Nat → Byte → HostMove} {after : Memory → List HostMove → State} {size : Nat}
    (hstep : ∀ m i b rest, i < size → step (after m (write i b :: rest)) = .next (after (memWrite m i b) rest))
    (rest : List HostMove) (m : Memory) (i : Nat) (bytes : List Byte) (hfits : i + bytes.length ≤ size) :
    runSteps bytes.length (after m (movesAscending write i bytes ++ rest)) = .next (after (memWriteAll m i bytes) rest) := by
  induction bytes generalizing m i with
  | nil => rfl
  | cons b bytes ih =>
    rw [List.length_cons] at hfits
    have hfirst := hstep m i b (movesAscending write (i + 1) bytes ++ rest) (by omega)
    exact (runSteps_succ _ _ _ hfirst).trans (ih _ _ (by omega))

/-- A command's answer leaves the script to the host. -/
theorem script_of_exec {i : Instr} {s t : State} (h : exec i s = .next t) : t.script = s.script := by
  obtain ⟨-, ⟨k, v, r, rfl⟩ | ⟨d, -, -, -, rfl⟩⟩ := exec_eq_next h <;> rfl

/-- Settles O60, line by line. -/
theorem hostLinesAreTheirActions : Obligations.HostLinesAreTheirActions := by
  unfold Obligations.HostLinesAreTheirActions
  refine ⟨fun s v rest h hs => ?_, fun s v rest h hs => ?_, fun s v rest h hs => ?_, fun s i bytes rest h hs hfits => ?_,
    fun s i k b rest h hs hfits => ?_, fun s c rest h hs => ?_, fun s rest hs => ⟨fun hbusy => ?_, fun h => ?_⟩⟩
  · rw [step_setA (rest := rest) hs, whenIdle_idle _ _ _ h]
  · rw [step_setN (rest := rest) hs, whenIdle_idle _ _ _ h]
  · rw [step_setCap (rest := rest) hs, whenIdle_idle _ _ _ h]
  · have hrun := runSteps_movesAscending (write := .writeSrc) (after := fun m r => { s with src := m, script := r })
      (fun m i b r hi => step_writeSrc_inside rfl h hi) rest s.src i bytes hfits
    rwa [← show s.script = movesAscending .writeSrc i bytes ++ rest from hs] at hrun
  · have hrun := runSteps_movesAscending (write := .writeDst) (after := fun m r => { s with dst := m, script := r })
      (fun m i b r hi => step_writeDst_inside rfl h hi) rest s.dst i (List.replicate k b)
      (by rw [List.length_replicate]; exact hfits)
    rwa [← show s.script = movesAscending .writeDst i (List.replicate k b) ++ rest from hs, List.length_replicate] at hrun
  · have hstep : step s = exec c { s with script := .wait :: rest } := by
      rw [step_issue hs, decodePort_encode]
      rfl
    exact ⟨hstep, fun t ht => script_of_exec (hstep ▸ ht)⟩
  · have hstep : step s = microStep s := by rw [step_wait hs, if_neg hbusy]
    refine ⟨hstep, fun t ht => ?_⟩
    obtain ⟨-, -, -, -, -, hscript, -⟩ := microStep_keeps s t hbusy (hstep ▸ ht)
    rw [hscript, hs]
  · rw [step_wait hs, if_pos h]

end Sys2Proof.Machine

/-! The invariant (R24, R40, R123, R124, R143; 93_implementation_defined.md U8): what a step can do, said once, and that each such
step keeps the invariant; that no state of the invariant is stuck, that a host which keeps its duties is never refused, and that
every driver completes. -/

namespace Sys2Proof.Machine

/-! ## What a step can do -/

/-- What a step that answers a next state has done, by whose move it was; `rest` is the script that the host has left. -/
inductive Move (s t : State) : Prop where
  | micro (rest : List HostMove) (h : microStep { s with script := rest } = .next t)
  | setA (v : Word) (rest : List HostMove) (hp : s.phase = .idle) (ht : t = { s with a := v, aWritten := true, script := rest })
  | setN (v : Length) (rest : List HostMove) (hp : s.phase = .idle)
      (ht : t = { s with n := v, nWritten := true, script := rest })
  | setCap (v : Length) (rest : List HostMove) (hp : s.phase = .idle)
      (ht : t = { s with cap := v, capWritten := true, script := rest })
  | writeSrc (i : Nat) (b : Byte) (rest : List HostMove) (hp : s.phase = .idle) (hi : i < s.srcSize)
      (ht : t = { s with src := memWrite s.src i b, script := rest })
  | writeDst (i : Nat) (b : Byte) (rest : List HostMove) (hp : s.phase = .idle) (hi : i < s.dstSize)
      (ht : t = { s with dst := memWrite s.dst i b, script := rest })
  | issue (i : Instr) (rest : List HostMove) (h : exec i { s with script := rest } = .next t)
  | read (seen : List Observation) (rest : List HostMove) (ht : t = { s with seen := seen, script := rest })
  | reset (rest : List HostMove) (ht : t = resetBlock { s with script := rest })

section
variable {s t : State} {d : Driver}

theorem move_of_hostRead {what : ReadTarget} {rest : List HostMove} (h : hostRead { s with script := rest } what = .next t) :
    Move s t := by
  obtain ⟨v, -, ht⟩ := (hostRead_eq_next _ _ _).mp h
  exact .read _ rest ht

theorem move_of_step (h : step s = .next t) : Move s t := by
  cases hs : s.script with
  | nil =>
    rw [step_nil s hs] at h
    exact .micro s.script h
  | cons m rest =>
    cases m with
    | setA v =>
      rw [step_setA hs, whenIdle_eq_next, Host.Outcome.next.injEq] at h
      exact .setA v rest h.1 h.2.symm
    | setN v =>
      rw [step_setN hs, whenIdle_eq_next, Host.Outcome.next.injEq] at h
      exact .setN v rest h.1 h.2.symm
    | setCap v =>
      rw [step_setCap hs, whenIdle_eq_next, Host.Outcome.next.injEq] at h
      exact .setCap v rest h.1 h.2.symm
    | writeSrc i b =>
      rw [step_writeSrc hs, whenIdle_eq_next, toOut_eq_next, writeSrc_eq_ok] at h
      exact .writeSrc i b rest h.1 h.2.1 h.2.2
    | writeDst i b =>
      rw [step_writeDst hs, whenIdle_eq_next, toOut_eq_next, writeDst_eq_ok] at h
      exact .writeDst i b rest h.1 h.2.1 h.2.2
    | issue op =>
      rw [step_issue hs] at h
      exact .issue _ rest h
    | wait =>
      rw [step_wait hs] at h
      by_cases hp : s.phase = .idle
      · rw [if_pos hp, ← microStep_of_idle (s := { s with script := rest }) hp] at h
        exact .micro rest h
      · rw [if_neg hp] at h
        exact .micro s.script h
    | tick =>
      rw [step_tick hs] at h
      exact .micro rest h
    | read what =>
      by_cases hwhat : what = .busy
      · subst hwhat
        rw [step_readBusy hs] at h
        exact move_of_hostRead h
      · rw [step_read hs hwhat, whenIdle_eq_next] at h
        exact move_of_hostRead h.2
    | reset =>
      rw [step_reset hs, Host.Outcome.next.injEq] at h
      exact .reset rest h.symm

/-! ## The parts of the invariant -/

/-- A byte memory in canonical form inside its size, which the index space holds (R31, R32). -/
structure MemoryInv (m : Memory) (size : Nat) : Prop where
  canonical : Memory.wf m
  inside : ∀ c ∈ m, c.1 < size
  size_le : size ≤ Config.indexCount

theorem MemoryInv.memWriteAll {m : Memory} {size : Nat} (h : MemoryInv m size) {base : Nat} {bytes : List Byte}
    (hfits : base + bytes.length ≤ size) : MemoryInv (memWriteAll m base bytes) size where
  canonical := memWriteAll_wf _ _ _ h.canonical
  inside := memWriteAll_inside _ _ _ h.inside hfits
  size_le := h.size_le

theorem MemoryInv.memWrite {m : Memory} {size : Nat} (h : MemoryInv m size) {i : Nat} (b : Byte) (hi : i < size) :
    MemoryInv (memWrite m i b) size := h.memWriteAll (bytes := [b]) hi

theorem memoryInv_nil {size : Nat} (h : size ≤ Config.indexCount) : MemoryInv [] size where
  canonical := .nil
  inside := nofun
  size_le := h

theorem Inv.source (h : Inv s) : MemoryInv s.src s.srcSize := ⟨h.src_canonical, h.src_inside, h.src_size⟩

theorem Inv.destination (h : Inv s) : MemoryInv s.dst s.dstSize := ⟨h.dst_canonical, h.dst_inside, h.dst_size⟩

theorem Inv.results (h : Inv s) : ResultInv s.status s.rlen s.r s.inv :=
  ⟨h.error_empty, h.length_error_flag, h.encoding_error_flag⟩

theorem inv_of_parts (hsrc : MemoryInv s.src s.srcSize) (hdst : MemoryInv s.dst s.dstSize)
    (hres : ResultInv s.status s.rlen s.r s.inv)
    (hd : s.phase ≠ .idle → ∃ d, driverOf s.cmd = some d ∧ DriverInv d s) : Inv s where
  src_canonical := hsrc.canonical
  dst_canonical := hdst.canonical
  src_inside := hsrc.inside
  dst_inside := hdst.inside
  src_size := hsrc.size_le
  dst_size := hdst.size_le
  driver := hd
  error_empty := hres.error_empty
  length_error_flag := hres.length_error_flag
  encoding_error_flag := hres.encoding_error_flag

/-- Of an idle block the invariant asks nothing about a driver. -/
theorem inv_of_idle (hp : s.phase = .idle) (hsrc : MemoryInv s.src s.srcSize) (hdst : MemoryInv s.dst s.dstSize)
    (hres : ResultInv s.status s.rlen s.r s.inv) : Inv s :=
  inv_of_parts hsrc hdst hres fun hbusy => absurd hp hbusy

/-- The invariant does not speak of the host's side. -/
theorem Inv.withHost (h : Inv s) (script : List HostMove) (seen : List Observation) :
    Inv { s with script := script, seen := seen } :=
  inv_of_parts h.source h.destination h.results fun hbusy => by
    obtain ⟨d, hd, hinv⟩ := h.driver hbusy
    exact ⟨d, hd, hinv.input_fits, hinv.offer_fits, hinv.room, hinv.in_range, hinv.at_end, hinv.no_error_in_encode⟩

/-! ## Steps keep the invariant -/

theorem driverInv_issuedDriver (hn : s.inputLength ≤ s.srcSize) (hc : s.capacity ≤ s.dstSize) :
    DriverInv d (issuedDriver d s) where
  input_fits := hn
  offer_fits := hc
  room := fun hp => absurd rfl hp
  in_range := nofun
  at_end := by rintro (hp | hp) <;> cases hp
  no_error_in_encode := fun _ hp => absurd rfl hp

theorem Inv.of_exec {i : Instr} (h : Inv s) (hexec : exec i s = .next t) : Inv t := by
  obtain ⟨-, ⟨k, v, r, rfl⟩ | ⟨d, -, hn, hc, rfl⟩⟩ := exec_eq_next hexec
  · exact inv_of_idle rfl h.source h.destination (resultInv_ok _ _ _)
  · exact inv_of_parts h.source h.destination h.results fun _ =>
      ⟨d, driverOf_encode_driverCommandOf d, driverInv_issuedDriver hn hc⟩

theorem Inv.of_microStep (h : Inv s) (hm : microStep s = .next t) : Inv t := by
  by_cases hp : s.phase = .idle
  · rw [microStep_of_idle hp] at hm
    cases hm
    exact h
  · obtain ⟨d, hd, hinv⟩ := h.driver hp
    obtain ⟨hsrc, -, -, hsrcSize, hdstSize, -, -⟩ := microStep_keeps s t hp hm
    obtain ⟨bytes, hdst, -, hfits⟩ := microStep_stores hp hd hm
    refine inv_of_parts ?_ ?_ ?_ fun hbusy => ?_
    · rw [hsrc, hsrcSize]
      exact h.source
    · rw [hdst, hdstSize]
      exact h.destination.memWriteAll hfits
    · rcases microStep_results hp hm with ⟨hr, hrlen, hflag, hstatus⟩ | ⟨-, hres⟩
      · rw [hr, hrlen, hflag, hstatus]
        exact h.results
      · exact hres
    · refine ⟨d, ?_, hinv.of_microStep hd hp hm hbusy⟩
      rw [(course_of_microStep hp hd hm).2]
      exact hd

theorem Inv.of_move (h : Inv s) (hmove : Move s t) : Inv t := by
  cases hmove with
  | micro rest hm => exact (h.withHost rest s.seen).of_microStep hm
  | setA v rest hp ht | setN v rest hp ht | setCap v rest hp ht =>
    subst ht
    exact inv_of_idle hp h.source h.destination h.results
  | writeSrc i b rest hp hi ht =>
    subst ht
    exact inv_of_idle hp (h.source.memWrite b hi) h.destination h.results
  | writeDst i b rest hp hi ht =>
    subst ht
    exact inv_of_idle hp h.source (h.destination.memWrite b hi) h.results
  | issue i rest hexec => exact (h.withHost rest s.seen).of_exec hexec
  | read seen rest ht =>
    subst ht
    exact h.withHost rest seen
  | reset rest ht =>
    subst ht
    exact inv_of_idle rfl (memoryInv_nil h.src_size) h.destination (resultInv_ok _ _ _)

/-! ## No state of the invariant is stuck -/

theorem exec_ne_fault (i : Instr) (s : State) (e : Fault) : exec i s ≠ .fault e := by
  rcases isShort_or_driver i with hi | ⟨d, rfl⟩
  · obtain ⟨k, v, r, hexec⟩ := exec_of_isShort hi s
    rw [hexec, shortCommand, ne_eq, whenIdle_eq_fault]
    exact fun h => nomatch h.2
  · rw [exec_driverCommandOf_eq, driverCommand, ne_eq, whenIdle_eq_fault]
    rintro ⟨-, h⟩
    split_ifs at h

theorem hostRead_ne_fault (what : ReadTarget) (s : State) (e : Fault) : hostRead s what ≠ .fault e := by
  unfold hostRead
  split <;> nofun

/-- Only a micro-step can be stuck. -/
theorem microStep_of_step_fault {e : Fault} (h : step s = .fault e) :
    ∃ rest, microStep { s with script := rest } = .fault e := by
  cases hs : s.script with
  | nil => exact ⟨s.script, step_nil s hs ▸ h⟩
  | cons m rest =>
    cases m with
    | setA v =>
      rw [step_setA hs, whenIdle_eq_fault] at h
      exact nomatch h.2
    | setN v =>
      rw [step_setN hs, whenIdle_eq_fault] at h
      exact nomatch h.2
    | setCap v =>
      rw [step_setCap hs, whenIdle_eq_fault] at h
      exact nomatch h.2
    | writeSrc i b =>
      rw [step_writeSrc hs, whenIdle_eq_fault] at h
      exact absurd h.2 (toOut_ne_fault _ _)
    | writeDst i b =>
      rw [step_writeDst hs, whenIdle_eq_fault] at h
      exact absurd h.2 (toOut_ne_fault _ _)
    | issue op => exact absurd (step_issue hs ▸ h) (exec_ne_fault _ _ _)
    | wait =>
      rw [step_wait hs] at h
      by_cases hp : s.phase = .idle
      · rw [if_pos hp] at h
        cases h
      · rw [if_neg hp] at h
        exact ⟨s.script, h⟩
    | tick => exact ⟨rest, step_tick hs ▸ h⟩
    | read what =>
      by_cases hwhat : what = .busy
      · subst hwhat
        exact absurd (step_readBusy hs ▸ h) (hostRead_ne_fault _ _ _)
      · rw [step_read hs hwhat, whenIdle_eq_fault] at h
        exact absurd h.2 (hostRead_ne_fault _ _ _)
    | reset =>
      rw [step_reset hs] at h
      cases h

theorem Inv.microStep_ne_fault (h : Inv s) (e : Fault) : microStep s ≠ .fault e := by
  intro hm
  obtain ⟨hbusy, hcases⟩ := microStep_eq_fault s e hm
  obtain ⟨d, hd, hinv⟩ := h.driver hbusy
  rcases hcases with hnone | ⟨d', hd', hfull, hpast⟩
  · rw [hd] at hnone
    cases hnone
  · obtain rfl : d = d' := Option.some.inj (hd.symm.trans hd')
    exact absurd (hinv.in_range hfull) (by omega)

/-! ## A host that keeps its duties -/

/-- In the invariant, and with its input written, a driver whose host waits is in progress. -/
theorem Inv.inProgress (h : Inv s) (hbusy : s.phase ≠ .idle) (hready : BlockReady s) (hw : HostWaits s) :
    ∃ d, InProgress d s := by
  obtain ⟨d, hd, hinv⟩ := h.driver hbusy
  exact ⟨d, hbusy, hd, hw, hready hbusy, hinv⟩

/-- With its input written a driver always has a micro-step, which leaves the input written. -/
theorem Inv.exists_microStep (h : Inv s) (hready : BlockReady s) : ∃ t, microStep s = .next t ∧ BlockReady t := by
  by_cases hp : s.phase = .idle
  · exact ⟨s, microStep_of_idle hp, hready⟩
  · obtain ⟨d, hprog⟩ := (h.withHost [] s.seen).inProgress hp hready (.inl rfl)
    obtain ⟨u, hu⟩ := hprog.exists_step
    rw [step_nil _ rfl, microStep_withScript] at hu
    cases hm : microStep s with
    | next t =>
      obtain ⟨hsrc, hn, -⟩ := microStep_keeps s t hp hm
      refine ⟨t, rfl, fun _ => ?_⟩
      rw [SourceWritten, hsrc, hn]
      exact hready hp
    | fault e =>
      rw [hm] at hu
      cases hu
    | refused e =>
      rw [hm] at hu
      cases hu

theorem isSome_driverOf (op : Code) : isShort (decodePort op) = false → (driverOf op).isSome = true := by
  revert op
  decide

theorem sourceWritten_of_operandsWritten (h : OperandsWritten (driverCommandOf d) s) : SourceWritten s := by
  cases d with
  | encode => exact h.2.2
  | decode => exact h.2.2

/-- A command that the host may present is answered, and the input of a driver has been written (R142). -/
theorem exists_exec_of_moveAllowed {op : Code} {rest : List HostMove} (h : MoveAllowed s (.issue op)) :
    ∃ t, exec (decodePort op) { s with script := rest } = .next t ∧ BlockReady t := by
  obtain ⟨hp, hwritten, hfits⟩ := h
  obtain ⟨t, ht⟩ := exists_exec_eq_next (s := { s with script := rest }) (decodePort op) hp
    fun hshort => hfits (isSome_driverOf op hshort)
  refine ⟨t, ht, fun hbusy => ?_⟩
  obtain ⟨-, ⟨k, v, r, rfl⟩ | ⟨d, hd, -, -, rfl⟩⟩ := exec_eq_next ht
  · exact absurd rfl hbusy
  · rw [hd] at hwritten
    exact sourceWritten_of_operandsWritten hwritten

/-- A read that the host may make finds a value (R19, R140). -/
theorem exists_readValue_of_moveAllowed {what : ReadTarget} (h : MoveAllowed s (.read what)) :
    (what = .busy ∨ s.phase = .idle) ∧ ∃ v, readValue s what = .ok v := by
  cases what with
  | busy => exact ⟨.inl rfl, _, rfl⟩
  | a | n | cap => exact ⟨.inr h.1, _, rfl⟩
  | r | rlen | inv | status => exact ⟨.inr h, _, rfl⟩
  | src i =>
    obtain ⟨hp, hi, hsome⟩ := h
    obtain ⟨b, hb⟩ := Option.isSome_iff_exists.mp hsome
    exact ⟨.inr hp, _, by rw [readValue_src, readSrc_of s i b hi hb]; rfl⟩
  | dst i =>
    obtain ⟨hp, hi, hsome⟩ := h
    obtain ⟨b, hb⟩ := Option.isSome_iff_exists.mp hsome
    exact ⟨.inr hp, _, by rw [readValue_dst, readDst_of hi hb]; rfl⟩

/-- The host's move is answered when it keeps its duties, and the input of a driver in progress stays written. -/
theorem Inv.exists_step_of_moveAllowed {m : HostMove} {rest : List HostMove} (h : Inv s) (hready : BlockReady s)
    (hs : s.script = m :: rest) (hallowed : MoveAllowed s m) : ∃ t, step s = .next t ∧ BlockReady t := by
  cases m with
  | setA v =>
    rw [step_setA hs, whenIdle_idle _ _ _ hallowed]
    exact ⟨_, rfl, fun hbusy => absurd hallowed hbusy⟩
  | setN v =>
    rw [step_setN hs, whenIdle_idle _ _ _ hallowed]
    exact ⟨_, rfl, fun hbusy => absurd hallowed hbusy⟩
  | setCap v =>
    rw [step_setCap hs, whenIdle_idle _ _ _ hallowed]
    exact ⟨_, rfl, fun hbusy => absurd hallowed hbusy⟩
  | writeSrc i b => exact ⟨_, step_writeSrc_inside hs hallowed.1 hallowed.2, fun hbusy => absurd hallowed.1 hbusy⟩
  | writeDst i b => exact ⟨_, step_writeDst_inside hs hallowed.1 hallowed.2, fun hbusy => absurd hallowed.1 hbusy⟩
  | issue op =>
    rw [step_issue hs]
    exact exists_exec_of_moveAllowed hallowed
  | wait =>
    rw [step_wait hs]
    by_cases hp : s.phase = .idle
    · rw [if_pos hp]
      exact ⟨_, rfl, hready⟩
    · rw [if_neg hp]
      exact h.exists_microStep hready
  | tick =>
    rw [step_tick hs]
    exact (h.withHost rest s.seen).exists_microStep hready
  | read what =>
    obtain ⟨hwhat | hp, v, hv⟩ := exists_readValue_of_moveAllowed hallowed
    · subst hwhat
      rw [step_readBusy hs, hostRead_of_ok ((readValue_withScript s rest .busy).trans hv)]
      exact ⟨_, rfl, hready⟩
    · exact ⟨_, step_read_ok hs hp hv, hready⟩
  | reset => exact ⟨_, step_reset hs, fun hbusy => absurd rfl hbusy⟩

/-! ## Every driver completes -/

theorem stepsLeft_le (d : Driver) (s : State) : stepsLeft d s ≤ fullChunks d s.inputLength + 4 := by
  unfold stepsLeft
  split
  · exact Nat.zero_le _
  · split <;> omega
  · omega
  · omega
  · omega

theorem fullChunks_le_third (d : Driver) (n : Nat) : fullChunks d n ≤ n / 3 := by
  cases d with
  | encode => exact le_rfl
  | decode => exact Nat.div_le_div_left (by decide) (by decide)

end

/-! ## The obligations -/

/-- Settles O50: both memories are empty and the block is idle. -/
theorem invariantHoldsAtReset : Obligations.InvariantHoldsAtReset := by
  unfold Obligations.InvariantHoldsAtReset
  exact inv_of_idle rfl (memoryInv_nil le_rfl) (memoryInv_nil le_rfl) (resultInv_ok _ _ _)

/-- Settles O51: each kind of move keeps each part of the invariant; of a driver's part, the micro-steps do by their course and by
where they store. -/
theorem everyStepKeepsTheInvariant : Obligations.EveryStepKeepsTheInvariant := by
  unfold Obligations.EveryStepKeepsTheInvariant
  exact fun s t h hs => h.of_move (move_of_step hs)

/-- Settles O52: only a micro-step can be stuck, and the invariant excludes both ways. -/
theorem noReachableStateIsStuck : Obligations.NoReachableStateIsStuck := by
  unfold Obligations.NoReachableStateIsStuck
  intro s e h hs
  obtain ⟨rest, hm⟩ := microStep_of_step_fault hs
  exact (h.withHost rest s.seen).microStep_ne_fault e hm

/-- Settles O53: the block's micro-step when the host has no move left, else the host's move. -/
theorem dutifulHostIsNeverRefused : Obligations.DutifulHostIsNeverRefused := by
  unfold Obligations.DutifulHostIsNeverRefused
  intro s h hready hkept
  cases hs : s.script with
  | nil =>
    rw [step_nil s hs]
    exact h.exists_microStep hready
  | cons m rest =>
    rw [ProtocolKept, hs] at hkept
    exact h.exists_step_of_moveAllowed hready hs hkept

/-- Settles O49: a driver in progress completes when it has used up the micro-steps it has left, which are one for each full
chunk at most, and four. -/
theorem everyDriverTerminates : Obligations.EveryDriverTerminates := by
  unfold Obligations.EveryDriverTerminates
  intro s h hw hready
  by_cases hp : s.phase = .idle
  · exact ⟨0, s, Nat.zero_le _, rfl, hp⟩
  · obtain ⟨d, hprog⟩ := h.inProgress hp hready hw
    obtain ⟨t, hrun, hidle⟩ := hprog.exists_run_to_idle
    refine ⟨stepsLeft d s, t, ?_, hrun, hidle⟩
    calc stepsLeft d s ≤ fullChunks d s.inputLength + 4 := stepsLeft_le d s
      _ ≤ s.inputLength / 3 + 4 := Nat.add_le_add_right (fullChunks_le_third d _) 4
      _ ≤ (2 ^ 32 - 1) / 3 + 4 := by
        have hlt := inputLength_lt s
        omega

end Sys2Proof.Machine

/-! Constant time (R147, R119): two states that differ in secrets only take steps of one kind into such states again. An access
succeeds or fails alike in both, so a sequence of accesses does, and a micro-step and a host move are made of these. -/

namespace Sys2Proof.Machine

/-! ## Accesses that go alike -/

/-- Two accesses that both succeed, with related results, or both fail, for the same reason. -/
inductive AccessesAlike {α β : Type} (R : α → β → Prop) : Except Refusal α → Except Refusal β → Prop where
  | ok {a : α} {b : β} (h : R a b) : AccessesAlike R (.ok a) (.ok b)
  | error (e : Refusal) : AccessesAlike R (.error e) (.error e)

/-- Bytes and numbers read from the two states: nothing is asked of them. -/
def AnyData {α β : Type} (_ : α) (_ : β) : Prop := True

theorem AccessesAlike.bind {α β α' β' : Type} {R : α → β → Prop} {S : α' → β' → Prop} {x : Except Refusal α}
    {y : Except Refusal β} {f : α → Except Refusal α'} {g : β → Except Refusal β'} (h : AccessesAlike R x y)
    (hnext : ∀ a b, R a b → AccessesAlike S (f a) (g b)) : AccessesAlike S (x >>= f) (y >>= g) := by
  cases h with
  | ok hab => exact hnext _ _ hab
  | error e => exact .error e

theorem AccessesAlike.map {α β α' β' : Type} {R : α → β → Prop} {x : Except Refusal α} {y : Except Refusal β}
    (h : AccessesAlike R x y) (f : α → α') (g : β → β') : AccessesAlike AnyData (x.map f) (y.map g) := by
  cases h with
  | ok hab => exact .ok trivial
  | error e => exact .error e

theorem AccessesAlike.toOut {x y : Except Refusal State} (h : AccessesAlike Alike x y) :
    OutcomesAlike (toOut x) (toOut y) := by
  cases h with
  | ok hab => exact hab
  | error e => exact rfl

theorem outcomesAlike_cases {x y : Out} (h : OutcomesAlike x y) :
    (∃ s t, x = .next s ∧ y = .next t ∧ Alike s t) ∨ (∃ e, x = .fault e ∧ y = .fault e) ∨
      (∃ e, x = .refused e ∧ y = .refused e) := by
  cases x with
  | next s =>
    cases y with
    | next t => exact .inl ⟨s, t, rfl, rfl, h⟩
    | fault | refused => exact h.elim
  | fault e =>
    cases y with
    | fault f => exact .inr (.inl ⟨e, rfl, congrArg _ (Eq.symm h)⟩)
    | next | refused => exact h.elim
  | refused e =>
    cases y with
    | refused f => exact .inr (.inr ⟨e, rfl, congrArg _ (Eq.symm h)⟩)
    | next | fault => exact h.elim

section
variable {s t : State}

theorem Alike.inputLength_eq (h : Alike s t) : t.inputLength = s.inputLength :=
  inputLength_congr s t h.n.symm h.nWritten.symm h.freeTick.symm

theorem Alike.capacity_eq (h : Alike s t) : t.capacity = s.capacity :=
  capacity_congr s t h.cap.symm h.capWritten.symm h.freeTick.symm

theorem Alike.readSrc (h : Alike s t) (i : Nat) : AccessesAlike AnyData (readSrc s i) (readSrc t i) := by
  rcases readSrc_alike i s t h with ⟨b, c, hs, ht⟩ | ⟨e, hs, ht⟩
  · rw [hs, ht]
    exact .ok trivial
  · rw [hs, ht]
    exact .error e

theorem Alike.readSrcOr (h : Alike s t) (real : Bool) (i : Nat) (p : Byte) :
    AccessesAlike AnyData (readSrcOr real s i p) (readSrcOr real t i p) := by
  cases real with
  | true => exact h.readSrc i
  | false => exact .ok trivial

theorem Alike.readDst (h : Alike s t) (i : Nat) : AccessesAlike AnyData (readDst s i) (readDst t i) := by
  have hsome : (memRead s.dst i).isSome = (memRead t.dst i).isSome := by
    rw [memRead_isSome, memRead_isSome, h.dst]
  rcases Nat.lt_or_ge i s.dstSize with hi | hi
  · have hi' : i < t.dstSize := h.dstSize ▸ hi
    cases hs : memRead s.dst i with
    | none =>
      rw [hs, Option.isSome_none, eq_comm, Option.isSome_eq_false_iff, Option.isNone_iff_eq_none] at hsome
      rw [readDst_of_none hi hs, readDst_of_none hi' hsome]
      exact .error _
    | some b =>
      rw [hs, Option.isSome_some, eq_comm, Option.isSome_iff_exists] at hsome
      obtain ⟨c, hc⟩ := hsome
      rw [readDst_of hi hs, readDst_of hi' hc]
      exact .ok trivial
  · rw [readDst_outside hi, readDst_outside (h.dstSize ▸ hi)]
    exact .error _

theorem Alike.writeDst (h : Alike s t) (base : Nat) {bytes bytes' : List Byte} (hlen : bytes.length = bytes'.length) :
    AccessesAlike Alike (writeDst s base bytes) (writeDst t base bytes') := by
  unfold Machine.writeDst
  rw [← hlen, ← h.dstSize]
  split
  · exact .ok { h with dst := addresses_memWriteAll _ _ _ _ _ h.dst hlen, dstSize := rfl }
  · exact .error _

theorem Alike.writeSrc (h : Alike s t) (i : Nat) (b b' : Byte) : AccessesAlike Alike (writeSrc s i b) (writeSrc t i b') := by
  unfold Machine.writeSrc
  rw [← h.srcSize]
  split
  · exact .ok { h with src := addresses_memWrite _ _ _ _ _ h.src, srcSize := rfl }
  · exact .error _

/-! ## Micro-steps -/

/-- Where a chunk leaves off: the next index is no secret, the accumulator is. -/
theorem Alike.withIndex (h : Alike s t) (i : Length) (e e' : Bool) :
    Alike { s with idx := i, err := e } { t with idx := i, err := e' } :=
  { h with idx := rfl }

theorem Alike.encodeChunk (h : Alike s t) : AccessesAlike Alike (encodeChunk s) (encodeChunk t) := by
  unfold Machine.encodeChunk
  rw [← h.idx]
  refine (h.readSrc _).bind fun _ _ _ => (h.readSrc _).bind fun _ _ _ => (h.readSrc _).bind fun _ _ _ =>
    (h.writeDst _ ?_).bind fun u u' hu => .ok (hu.withIndex _ u.err u'.err)
  rw [length_quadBytes, length_quadBytes]

theorem Alike.decodeGroup (h : Alike s t) : AccessesAlike Alike (decodeGroup s) (decodeGroup t) := by
  unfold Machine.decodeGroup
  rw [← h.idx]
  refine (h.readSrc _).bind fun _ _ _ => (h.readSrc _).bind fun _ _ _ => (h.readSrc _).bind fun _ _ _ =>
    (h.readSrc _).bind fun _ _ _ => (h.writeDst _ ?_).bind fun _ _ hu => .ok (hu.withIndex _ _ _)
  rw [length_tripleBytes, length_tripleBytes]

theorem Alike.encodeRemainder (h : Alike s t) : AccessesAlike Alike (encodeRemainder s) (encodeRemainder t) := by
  have hn := h.inputLength_eq
  by_cases hrem : s.inputLength % 3 = 0
  · rw [encodeRemainder_of_none hrem, encodeRemainder_of_none (hn ▸ hrem)]
    exact .ok { h with phase := rfl }
  · rw [encodeRemainder_of_some hrem, encodeRemainder_of_some (hn ▸ hrem), hn]
    refine (h.readSrc _).bind fun _ _ _ => (h.readSrcOr _ _ _).bind fun _ _ _ => (h.writeDst _ ?_).bind fun _ _ hu =>
      .ok { hu with phase := rfl }
    rw [List.length_take, List.length_take, length_quadBytes, length_quadBytes]

theorem Alike.decodeRemainder (h : Alike s t) : AccessesAlike Alike (decodeRemainder s) (decodeRemainder t) := by
  have hn := h.inputLength_eq
  rw [Machine.decodeRemainder, Machine.decodeRemainder, decodeRemainderWith_of_rem _ rfl,
    decodeRemainderWith_of_rem (s := t) _ (congrArg (· % 4) hn), hn]
  refine (h.readSrcOr _ _ _).bind fun _ _ _ => (h.readSrcOr _ _ _).bind fun _ _ _ => (h.readSrcOr _ _ _).bind fun _ _ _ =>
    (h.writeDst _ ?_).bind fun _ _ hu => .ok { hu with phase := rfl }
  rw [List.length_take, List.length_take, length_tripleBytes, length_tripleBytes]

theorem Alike.checkStep (h : Alike s t) (d : Driver) : Alike (checkStep d s) (checkStep d t) := by
  unfold Machine.checkStep
  rw [h.inputLength_eq, h.capacity_eq]
  split
  · exact { h with phase := rfl }
  · exact { h with phase := rfl, idx := rfl }

theorem Alike.fullStep (h : Alike s t) (d : Driver) : OutcomesAlike (fullStep d s) (fullStep d t) := by
  unfold Machine.fullStep
  rw [h.inputLength_eq, ← h.idx]
  split
  · cases d with
    | encode => exact h.encodeChunk.toOut
    | decode => exact h.decodeGroup.toOut
  · split
    · exact { h with phase := rfl, idx := rfl }
    · exact rfl

theorem Alike.remStep (h : Alike s t) (d : Driver) : OutcomesAlike (remStep d s) (remStep d t) := by
  cases d with
  | encode => exact h.encodeRemainder.toOut
  | decode => exact h.decodeRemainder.toOut

theorem Alike.finStep (h : Alike s t) (d : Driver) : Alike (finStep d s) (finStep d t) := by
  cases d <;> exact { h with phase := rfl }

theorem Alike.microStep (h : Alike s t) : OutcomesAlike (microStep s) (microStep t) := by
  unfold Machine.microStep
  rw [← h.phase, ← h.cmd]
  cases s.phase with
  | idle => exact h
  | check =>
    cases driverOf s.cmd with
    | none => exact rfl
    | some d => exact h.checkStep d
  | full =>
    cases driverOf s.cmd with
    | none => exact rfl
    | some d => exact h.fullStep d
  | rem =>
    cases driverOf s.cmd with
    | none => exact rfl
    | some d => exact h.remStep d
  | fin =>
    cases driverOf s.cmd with
    | none => exact rfl
    | some d => exact h.finStep d

/-! ## Moves of the host -/

theorem Alike.whenIdle (h : Alike s t) (e : Refusal) {x y : Out} (hxy : OutcomesAlike x y) :
    OutcomesAlike (whenIdle e s x) (whenIdle e t y) := by
  unfold Machine.whenIdle
  rw [← h.phase]
  split
  · exact hxy
  · exact rfl

theorem Alike.driverCommand (h : Alike s t) (op : Code) : OutcomesAlike (driverCommand op s) (driverCommand op t) := by
  unfold Machine.driverCommand
  rw [h.inputLength_eq, h.capacity_eq, ← h.srcSize, ← h.dstSize]
  refine h.whenIdle _ ?_
  split
  · exact rfl
  · split
    · exact rfl
    · exact { h with phase := rfl, cmd := rfl }

theorem Alike.exec (h : Alike s t) (i : Instr) : OutcomesAlike (exec i s) (exec i t) := by
  rcases isShort_or_driver i with hi | ⟨d, rfl⟩
  · obtain ⟨k, v, r, hs⟩ := exec_of_isShort hi s
    obtain ⟨k', v', r', ht⟩ := exec_of_isShort hi t
    rw [hs, ht]
    exact h.whenIdle _ { h with phase := rfl, cmd := rfl }
  · rw [exec_driverCommandOf_eq, exec_driverCommandOf_eq]
    exact h.driverCommand _

theorem Alike.readValue (h : Alike s t) (what : ReadTarget) :
    AccessesAlike AnyData (readValue s what) (readValue t what) := by
  cases what with
  | src i => exact (h.readSrc i).map _ _
  | dst i => exact (h.readDst i).map _ _
  | a | n | cap | r | rlen | inv | status | busy => exact .ok trivial

theorem Alike.hostRead (h : Alike s t) (what : ReadTarget) : OutcomesAlike (hostRead s what) (hostRead t what) := by
  unfold Machine.hostRead
  have hvalue := h.readValue what
  cases hs : Machine.readValue s what with
  | ok v =>
    cases ht : Machine.readValue t what with
    | ok v' => exact { h with seen := congrArg (what :: ·) h.seen }
    | error e =>
      rw [hs, ht] at hvalue
      cases hvalue
  | error e =>
    rw [hs] at hvalue
    cases ht : Machine.readValue t what with
    | ok v' =>
      rw [ht] at hvalue
      cases hvalue
    | error e' =>
      rw [ht] at hvalue
      cases hvalue
      exact rfl

theorem Alike.resetBlock (h : Alike s t) : Alike (resetBlock s) (resetBlock t) :=
  { h with
    aWritten := rfl, nWritten := rfl, capWritten := rfl, phase := rfl, cmd := rfl, idx := rfl, src := rfl
    freeTick := congrArg (· + 3) h.freeTick }

/-- The move of one host, and that of another which differs in its data only. -/
theorem Alike.step_of_move (h : Alike s t) {m m' : HostMove} {rest rest' : List HostMove} (hs : s.script = m :: rest)
    (ht : t.script = m' :: rest') : OutcomesAlike (step s) (step t) := by
  have hscript := h.script
  rw [hs, ht, List.map_cons, List.map_cons, List.cons.injEq] at hscript
  obtain ⟨hm, hrest⟩ := hscript
  have hleft : Alike { s with script := rest } { t with script := rest' } := { h with script := hrest }
  cases m with
  | setA v =>
    cases m' with
    | setA v' =>
      rw [step_setA hs, step_setA ht]
      exact h.whenIdle _ { h with aWritten := rfl, script := hrest }
    | _ => cases hm
  | setN v =>
    cases m' with
    | setN v' =>
      cases hm
      rw [step_setN hs, step_setN ht]
      exact h.whenIdle _ { h with n := rfl, nWritten := rfl, script := hrest }
    | _ => cases hm
  | setCap v =>
    cases m' with
    | setCap v' =>
      cases hm
      rw [step_setCap hs, step_setCap ht]
      exact h.whenIdle _ { h with cap := rfl, capWritten := rfl, script := hrest }
    | _ => cases hm
  | writeSrc i b =>
    cases m' with
    | writeSrc i' b' =>
      cases hm
      rw [step_writeSrc hs, step_writeSrc ht]
      exact h.whenIdle _ (hleft.writeSrc i b b').toOut
    | _ => cases hm
  | writeDst i b =>
    cases m' with
    | writeDst i' b' =>
      cases hm
      rw [step_writeDst hs, step_writeDst ht]
      exact h.whenIdle _ (hleft.writeDst i (bytes := [b]) (bytes' := [b']) rfl).toOut
    | _ => cases hm
  | issue op =>
    cases m' with
    | issue op' =>
      cases hm
      rw [step_issue hs, step_issue ht]
      exact hleft.exec _
    | _ => cases hm
  | wait =>
    cases m' with
    | wait =>
      rw [step_wait hs, step_wait ht]
      by_cases hidle : s.phase = .idle
      · rw [if_pos hidle, if_pos (h.phase ▸ hidle)]
        exact hleft
      · rw [if_neg hidle, if_neg (h.phase ▸ hidle)]
        exact h.microStep
    | _ => cases hm
  | tick =>
    cases m' with
    | tick =>
      rw [step_tick hs, step_tick ht]
      exact hleft.microStep
    | _ => cases hm
  | read what =>
    cases m' with
    | read what' =>
      cases hm
      by_cases hwhat : what = .busy
      · subst hwhat
        rw [step_readBusy hs, step_readBusy ht]
        exact hleft.hostRead .busy
      · rw [step_read hs hwhat, step_read ht hwhat]
        exact h.whenIdle _ (hleft.hostRead what)
    | _ => cases hm
  | reset =>
    cases m' with
    | reset =>
      rw [step_reset hs, step_reset ht]
      exact hleft.resetBlock
    | _ => cases hm

theorem Alike.step (h : Alike s t) : OutcomesAlike (step s) (step t) := by
  have hscript := h.script
  cases hs : s.script with
  | nil =>
    rw [hs, List.map_nil, eq_comm, List.map_eq_nil_iff] at hscript
    rw [step_nil s hs, step_nil t hscript]
    exact h.microStep
  | cons m rest =>
    rw [hs, List.map_cons, eq_comm, List.map_eq_cons_iff] at hscript
    obtain ⟨m', rest', ht, -, -⟩ := hscript
    exact h.step_of_move hs ht

end

/-! ## Runs -/

/-- Settles O54: every micro-step and every host move goes the same way in two alike states. -/
theorem stepsAreAlikeForAllSecrets : Obligations.StepsAreAlikeForAllSecrets := by
  unfold Obligations.StepsAreAlikeForAllSecrets
  exact fun _ _ h => h.step

/-- Settles O55, by induction on the number of steps: after a step the two states are alike again, or both runs have stopped. -/
theorem runsAreAlikeForAllSecrets : Obligations.RunsAreAlikeForAllSecrets := by
  unfold Obligations.RunsAreAlikeForAllSecrets
  intro k
  induction k with
  | zero => exact fun _ _ h => h
  | succ k ih =>
    intro s t h
    rcases outcomesAlike_cases h.step with ⟨s', t', hs, ht, h'⟩ | ⟨e, hs, ht⟩ | ⟨e, hs, ht⟩
    · rw [runSteps_succ _ _ _ hs, runSteps_succ _ _ _ ht]
      exact ih s' t' h'
    · rw [runSteps_stop_fault _ _ _ hs, runSteps_stop_fault _ _ _ ht]
      exact rfl
    · rw [runSteps_stop_refused _ _ _ hs, runSteps_stop_refused _ _ _ ht]
      exact rfl

end Sys2Proof.Machine
